-- ==== Sys2Proof/Word.lean ====
section
/-! DEFINITION. The word types of the block: operation words, bytes, nibbles (spec/00_scope.md R7,
spec/30_encoding.md R80). All values are unsigned bit vectors; bit 0 is the least significant bit. -/

namespace Sys2Proof

/-- A host operation word, `w[11:0]`, format `OPW12` (R80, R81). -/
abbrev Word := BitVec 12

/-- A byte: a command byte, a data byte, or the operand field `opd` (R7). -/
abbrev Byte := BitVec 8

/-- A nibble, the unit of transfer of the bus (R7, R51). -/
abbrev Nibble := BitVec 4

end Sys2Proof
end

