-- ==== Sys2Proof/Config.lean ====
section
/-! DEFINITION. What is fixed for one block: the pin map and its possible errors, the command constants, the
delay classes and their durations (spec/00_scope.md R6; spec/10_state.md R30; spec/60_exceptions.md R181), and
the values the spec leaves open: the reset draw of OUT (spec/10_state.md R26) and the pin map a block is given. -/

namespace Sys2Proof

/-- A Driver Configuration before validation: which pins carry Enable, Register-Select and the four data
lines (10_state.md R30). Port ids are numbers (log entry 17). -/
structure RawConfig where
  dataPort : Nat
  dataOff : Nat
  ePort : Nat
  eBit : Nat
  rsPort : Nat
  rsBit : Nat
  deriving DecidableEq, Repr, Inhabited

/-- The causes of a construction failure (60_exceptions.md R181). -/
inductive ConfigError where
  /-- `CFG_RANGE`: a bit number outside the port. -/
  | range
  /-- `CFG_OVERLAP`: Enable or Register-Select is one of the data pins. -/
  | overlap
  /-- `CFG_SAME_PIN`: Enable and Register-Select are the same pin. -/
  | samePin
  deriving DecidableEq, Repr

/-- The six constants a block sends that the source does not fix, fields of the configuration
(30_encoding.md R91; 00_scope.md R6). -/
structure Constants where
  /-- `HS`, the handshake nibble of INIT step 3. -/
  hs : Nibble
  /-- `FS`, the function-set byte. -/
  fs : Byte
  /-- `EM`, the entry-mode byte. -/
  em : Byte
  /-- `DC_DEFAULT`, the operand of `INIT` written alone. -/
  dcDefault : Byte
  /-- `SH_LEFT`, the shift-display-left byte. -/
  shLeft : Byte
  /-- `SH_RIGHT`, the shift-display-right byte. -/
  shRight : Byte
  deriving DecidableEq, Repr

/-- The twelve delay classes of `DLY(k)` (40_bus_primitives.md R114). -/
inductive DelayClass where
  | pwron | hs1 | hs2 | hs3 | home | clear | fset | dctl | emode | strobe | settle | shift
  deriving DecidableEq, Repr

/-- The durations `T_k`, one for each delay class, in nanoseconds (00_scope.md R6; 60_exceptions.md R189). -/
structure Timing where
  pwron : Nat
  hs1 : Nat
  hs2 : Nat
  hs3 : Nat
  home : Nat
  clear : Nat
  fset : Nat
  dctl : Nat
  emode : Nat
  strobe : Nat
  settle : Nat
  shift : Nat
  deriving DecidableEq, Repr

/-- The draw of OUT at reset, `{E, RS, D}`: a value the spec leaves open and forbids a model to assume
(10_state.md R26, R210). It has no body, so nothing can be proved of it (log entry 1). -/
opaque resetDraw : BitVec 6

/-- The pin map and the port width with which the block of `Sys2Proof.core` was constructed: each construction has
its own (10_state.md R30, R33), so they have no body and nothing can be proved of them (log entry 3). -/
opaque installedPinMap : RawConfig

/-- The port width beside `installedPinMap` (00_scope.md R6, OPEN; log entry 3). -/
opaque installedPortWidth : Nat

end Sys2Proof
end

