-- ==== Sys2Proof/Machine/Bus.lean ====
section
/-! DEFINITION. The six bus signals as the register OUT, its 6-bit form, its draw at reset, and the events of
the trace (spec/10_state.md R20, R26, R27). -/

namespace Sys2Proof.Machine

/-- The output register OUT: the six logical signals of the bus (R20). `true` is 1, asserted, pin high
(00_scope.md R8). -/
structure Out where
  /-- `OUT.E`, `OUT[5]`: the Enable line. -/
  e : Bool
  /-- `OUT.RS`, `OUT[4]`: 0 selects the command register, 1 the data register. -/
  rs : Bool
  /-- `OUT.D`, `OUT[3:0]`: the data lines D3 to D0. -/
  d : Nibble
  deriving DecidableEq, Repr

/-- An event of the trace: a pin write, with the value of OUT after it, or a delay (R27). -/
inductive Event where
  | pin (v : Out)
  | delay (k : DelayClass)
  deriving DecidableEq, Repr

/-- The 6-bit value of OUT as traces print it, `{E, RS, D3, D2, D1, D0}` (R20). -/
def Out.toBits (o : Out) : BitVec 6 := BitVec.ofBool o.e ++ (BitVec.ofBool o.rs ++ o.d)

/-- OUT from its 6-bit value (R20). -/
def Out.ofBits (v : BitVec 6) : Out := { e := v.getLsbD 5, rs := v.getLsbD 4, d := v.extractLsb' 0 4 }

/-- The idle pattern, OUT = 0b000000 (00_scope.md R16; 40_bus_primitives.md R124). -/
def Out.idle : Out := { e := false, rs := false, d := 0x0#4 }

/-- OUT right after reset: the draw, of which nothing is assumed (R26; log entry 1). -/
def outAtReset : Out := Out.ofBits resetDraw

end Sys2Proof.Machine
end

