-- ==== Sys2Proof/Machine/Constants.lean ====
section
/-! DEFINITION. The values of the command constants (spec/00_scope.md R6; spec/30_encoding.md R90, R91). -/

namespace Sys2Proof.Machine

/-- The defaults of the six command constants (R6, R91; log entry 14). -/
def defaultConstants : Constants :=
  { hs := 0x2#4, fs := 0x28#8, em := 0x06#8, dcDefault := 0x0E#8, shLeft := 0x18#8, shRight := 0x1C#8 }

/-- `CLEAR`, the clear-display command byte, stated by the source (R6). -/
def clearByte : Byte := 0x01#8

/-- `HOME`, the return-home command byte, stated by the source (R6). -/
def homeByte : Byte := 0x02#8

/-- `ADDR_CMD`, the set-cursor-address command bit (R6). -/
def addrCmdBit : Byte := 0x80#8

/-- `ROW1_BASE`, the DDRAM offset of row 1 (R6). -/
def row1Base : Byte := 0x40#8

end Sys2Proof.Machine
end

