-- ==== Sys2Proof/Machine/Operands.lean ====
section
/-! DEFINITION. Operand forms and the arithmetic of the block (spec/40_bus_primitives.md R126): the nibble
split, the set-cursor-address byte, the display-control operand, the bus frame. -/

namespace Sys2Proof.Machine

/-- `hi(b) = b[7:4]`, the nibble sent first (30_encoding.md R89; 20_memory.md R53). -/
def hi (b : Byte) : Nibble := b.extractLsb' 4 4

/-- `lo(b) = b[3:0]`, the nibble sent second (30_encoding.md R89; 20_memory.md R53). -/
def lo (b : Byte) : Nibble := b.extractLsb' 0 4

/-- The DDRAM offset of a row: 0 for row 0, 0x40 for row 1 (20_memory.md R58). -/
def rowBase (row : BitVec 1) : Byte := if row = 1#1 then row1Base else 0x00#8

/-- `addr_cmd(row, col) = 0x80 | (row ? 0x40 : 0x00) | zext_8(col)` (30_encoding.md R85;
42_position_and_shift.md R150). -/
def addrCmd (row : BitVec 1) (col : Nibble) : Byte := addrCmdBit ||| rowBase row ||| col.setWidth 8

/-- The DDRAM address of a display position, 7 bits (20_memory.md R58). -/
def ddramAddr (row : BitVec 1) (col : Nibble) : BitVec 7 := (addrCmd row col).extractLsb' 0 7

/-- Whether a display-control byte may be the operand of `INIT`: 0x0C to 0x0F (30_encoding.md R83). -/
def displayOn (dc : Byte) : Bool := decide (0x0C ≤ dc.toNat) && decide (dc.toNat ≤ 0x0F)

/-- The bus frame: the value of the six signals during one Enable pulse (30_encoding.md R88). -/
def busFrame (rs : Bool) (n : Nibble) : Out := { e := true, rs := rs, d := n }

end Sys2Proof.Machine
end

