-- ==== Sys2Proof/Machine/Micro.lean ====
section
/-! DEFINITION. The bus primitive layer: the five micro-operations, their effect on OUT, the event each one
records, and the composites STROBE, FRAME and BYTE (spec/40_bus_primitives.md R110 to R118). -/

namespace Sys2Proof.Machine

/-- The micro-operations; no other exists (R115). They have no encoding (30_encoding.md R96). -/
inductive MicroOp where
  /-- `APPLY(rs, n)` (R110). -/
  | apply (rs : Bool) (n : Nibble)
  /-- `EN(v)` (R111). -/
  | en (v : Bool)
  /-- `RETRACT` (R112). -/
  | retract
  /-- `RSTLINES` (R113). -/
  | rstlines
  /-- `DLY(k)` (R114). -/
  | dly (k : DelayClass)
  deriving DecidableEq, Repr

/-- The value of OUT after a micro-operation; each one writes the fields it names in one step and reads none
(R110 to R114; 10_state.md R21). -/
def MicroOp.write (m : MicroOp) (o : Out) : Out :=
  match m with
  | .apply rs n => { o with rs := rs, d := n }
  | .en v => { o with e := v }
  | .retract => { o with rs := false, d := 0b0000#4 }
  | .rstlines => { o with e := false, rs := false }
  | .dly _ => o

/-- The event a micro-operation records, given OUT after it (R110 to R114; 10_state.md R27). -/
def MicroOp.event (m : MicroOp) (after : Out) : Event :=
  match m with
  | .apply _ _ => .pin after
  | .en _ => .pin after
  | .retract => .pin after
  | .rstlines => .pin after
  | .dly k => .delay k

/-- `STROBE`: deassert, assert, deassert Enable, one delay between each two (R116). -/
def strobe : List MicroOp := [.en false, .dly .strobe, .en true, .dly .strobe, .en false]

/-- `FRAME(rs, n)`: present the nibble, strobe, settle, retract (R117). -/
def frame (rs : Bool) (n : Nibble) : List MicroOp :=
  MicroOp.apply rs n :: (strobe ++ [MicroOp.dly .settle, MicroOp.retract])

/-- `BYTE(rs, b)`: two frames, high nibble first (R118). -/
def byteFrames (rs : Bool) (b : Byte) : List MicroOp := frame rs (hi b) ++ frame rs (lo b)

/-- OUT after a list of micro-operations performed in order (00_scope.md R10). -/
def outAfter (o : Out) : List MicroOp → Out
  | [] => o
  | m :: rest => outAfter (m.write o) rest

/-- The events of a list of micro-operations performed in order from a value of OUT (10_state.md R27). -/
def eventsOf (o : Out) : List MicroOp → List Event
  | [] => []
  | m :: rest => m.event (m.write o) :: eventsOf (m.write o) rest

end Sys2Proof.Machine
end

