-- ==== Sys2Proof/Syntax.lean ====
section
/-! DEFINITION. The instructions: one constructor for each row of spec/opcode_table.json. The first six are
the operations of format `OPW12` (spec/30_encoding.md R82); the last seven are the controller command
bytes of format `LCDCMD8` (R90), which a host sends as the operation `CMD`. -/

namespace Sys2Proof

/-- An instruction, with its operands as the encoding's fields give them. -/
inductive Instr where
  /-- `INIT dc`: the initialization sequence; `dc` is the display-control byte of step 7 (R83, R140). -/
  | init (dc : Byte)
  /-- `CMD b`: send `b` to the command register (R84, R119). -/
  | cmd (b : Byte)
  /-- `DATA b`: send `b` to the data register (R84, R120). -/
  | data (b : Byte)
  /-- `SETPOS row, col`: send the set-cursor-address command of a display position (R85, R150). -/
  | setpos (row : BitVec 1) (col : Nibble)
  /-- `SHL times`: send the shift-display-left command `times` times (R86, R151). -/
  | shl (times : Byte)
  /-- `SHR times`: send the shift-display-right command `times` times (R86, R152). -/
  | shr (times : Byte)
  /-- Command byte CLEAR, `00000001`. -/
  | clear
  /-- Command byte HOME, `00000010`. -/
  | home
  /-- Command byte ENTRY_MODE, `000001xx`. -/
  | entryMode (options : BitVec 2)
  /-- Command byte DISPLAY_CTRL, `00001xxx`. -/
  | displayCtrl (options : BitVec 3)
  /-- Command byte CURSOR_SHIFT, `0001xx00`. -/
  | cursorShift (options : BitVec 2)
  /-- Command byte FUNCTION_SET, `0010x000`. -/
  | functionSet (options : BitVec 1)
  /-- Command byte SET_DDRAM, `1aaaaaaa`. -/
  | setDdram (address : BitVec 7)
  deriving DecidableEq, Repr

end Sys2Proof
end

