-- ==== Sys2Proof/WellFormed.lean ====
section
/-! DEFINITION. Which instructions an encoding exists for. Every operand field but one admits every value
of its width; the operand of `INIT` is a display-control byte with the display on (spec/30_encoding.md R83). -/

namespace Sys2Proof

/-- Well-formedness: `dc[7:2] = 0b000011` for `INIT` (R83); rows 2 and 3 and columns above 15 cannot be
written (R85), and every other operand value is legal (R84, R86, R90). -/
def Instr.wf : Instr → Bool
  | .init dc => dc.extractLsb' 2 6 == 0b000011#6
  | .cmd _ => true
  | .data _ => true
  | .setpos _ _ => true
  | .shl _ => true
  | .shr _ => true
  | .clear => true
  | .home => true
  | .entryMode _ => true
  | .displayCtrl _ => true
  | .cursorShift _ => true
  | .functionSet _ => true
  | .setDdram _ => true

end Sys2Proof
end

