-- ==== Sys2Proof/Decode.lean ====
section
/-! DEFINITION. Decoding and encoding (spec/30_encoding.md R80 to R87, R90, R92, R97). Two formats reach the
block's host: the 12-bit operation word `OPW12` and the 8-bit controller command byte `LCDCMD8`. Nothing in
the state changes how a word is decoded (R80). -/

namespace Sys2Proof

/-- One entry a host has still to present: an operation word, or a controller command byte named by its
class, which the host sends as the operation `CMD` (R90, R95; log entry 5). -/
inductive HostEntry where
  | opWord (w : Word)
  | cmdByte (b : Byte)
  deriving DecidableEq, Repr

/-- Why a word or a byte decodes to no instruction. -/
inductive Reject where
  /-- `opc` is 0x6 to 0xF (R87). -/
  | reservedOpc
  /-- `opc = 0x0` and `opd` is not one of 0x0C to 0x0F (R83, R87). -/
  | reservedInitOperand
  /-- `opc = 0x3` and `opd[7:5]` is not 0 (R85, R87). -/
  | reservedSetposOperand
  /-- The byte is in no class of the command table, read narrowly (R90, R92). -/
  | noCommandClass
  /-- The bits do not make one operation word or one command byte (R80). -/
  | notOneWord
  deriving DecidableEq, Repr

/-- The decode function on operation words, by the match and mask of each row (R97). -/
def decode (w : Word) : Except Reject Instr :=
  if w &&& 0xFFC#12 = 0x00C#12 then .ok (.init (w.extractLsb' 0 8))
  else if w &&& 0xF00#12 = 0x100#12 then .ok (.cmd (w.extractLsb' 0 8))
  else if w &&& 0xF00#12 = 0x200#12 then .ok (.data (w.extractLsb' 0 8))
  else if w &&& 0xFE0#12 = 0x300#12 then .ok (.setpos (w.extractLsb' 4 1) (w.extractLsb' 0 4))
  else if w &&& 0xF00#12 = 0x400#12 then .ok (.shl (w.extractLsb' 0 8))
  else if w &&& 0xF00#12 = 0x500#12 then .ok (.shr (w.extractLsb' 0 8))
  else if w &&& 0xF00#12 = 0x000#12 then .error .reservedInitOperand
  else if w &&& 0xF00#12 = 0x300#12 then .error .reservedSetposOperand
  else .error .reservedOpc

/-- The class of a controller command byte, with the ranges of CURSOR_SHIFT and FUNCTION_SET read narrowly
(R90, R92; 90_conflicts.md C8; log entry 11). -/
def decodeCommand (b : Byte) : Except Reject Instr :=
  if b = 0x01#8 then .ok .clear
  else if b = 0x02#8 then .ok .home
  else if b &&& 0xFC#8 = 0x04#8 then .ok (.entryMode (b.extractLsb' 0 2))
  else if b &&& 0xF8#8 = 0x08#8 then .ok (.displayCtrl (b.extractLsb' 0 3))
  else if b &&& 0xF3#8 = 0x10#8 then .ok (.cursorShift (b.extractLsb' 2 2))
  else if b &&& 0xF7#8 = 0x20#8 then .ok (.functionSet (b.extractLsb' 3 1))
  else if b &&& 0x80#8 = 0x80#8 then .ok (.setDdram (b.extractLsb' 0 7))
  else .error .noCommandClass

/-- The instruction a host entry stands for. -/
def decodeEntry : HostEntry → Except Reject Instr
  | .opWord w => decode w
  | .cmdByte b => decodeCommand b

/-- The byte the operand field of an instruction's operation word carries: for a command class, the
command byte itself (R81, R85, R90). -/
def operandByte : Instr → Byte
  | .init dc => dc
  | .cmd b => b
  | .data b => b
  | .setpos row col => 0#3 ++ (row ++ col)
  | .shl times => times
  | .shr times => times
  | .clear => 0x01#8
  | .home => 0x02#8
  | .entryMode options => 0b000001#6 ++ options
  | .displayCtrl options => 0b00001#5 ++ options
  | .cursorShift options => 0b0001#4 ++ (options ++ 0b00#2)
  | .functionSet options => 0b0010#4 ++ (options ++ 0b000#3)
  | .setDdram address => 1#1 ++ address

/-- The operation code `opc` under which an instruction is presented at the port (R82). A command byte is
presented as `CMD` (R84, R95, R161; log entry 5). -/
def opcOf : Instr → BitVec 4
  | .init _ => 0x0#4
  | .cmd _ => 0x1#4
  | .data _ => 0x2#4
  | .setpos _ _ => 0x3#4
  | .shl _ => 0x4#4
  | .shr _ => 0x5#4
  | .clear => 0x1#4
  | .home => 0x1#4
  | .entryMode _ => 0x1#4
  | .displayCtrl _ => 0x1#4
  | .cursorShift _ => 0x1#4
  | .functionSet _ => 0x1#4
  | .setDdram _ => 0x1#4

/-- The operation word presented at the port for an instruction, `{opc, opd}` (R81). -/
def wordOf (i : Instr) : Word := opcOf i ++ operandByte i

/-- Whether an instruction is a row of format `LCDCMD8`. -/
def isCommandClass : Instr → Bool
  | .init _ | .cmd _ | .data _ | .setpos _ _ | .shl _ | .shr _ => false
  | .clear | .home | .entryMode _ | .displayCtrl _ | .cursorShift _ | .functionSet _ | .setDdram _ => true

/-- The encoder: the entry an instruction is written as, in its own format. -/
def encode (i : Instr) : HostEntry :=
  if isCommandClass i then .cmdByte (operandByte i) else .opWord (wordOf i)

/-- The operation word the host drives on `op_word` for an entry: the word itself, or `CMD b` for a command
byte `b` (10_state.md R34; R95). -/
def portWord : HostEntry → Word
  | .opWord w => w
  | .cmdByte b => 0x1#4 ++ b

/-- Decoding of any bytes, lowest address first: one byte is a command byte, two bytes are an operation word
with its low byte first and its top four bits 0 (log entry 10). -/
def decodeBytes : List Byte → Except Reject Instr
  | [b] => decodeCommand b
  | [low, high] =>
    if high.extractLsb' 4 4 = 0#4 then decode (high.extractLsb' 0 4 ++ low) else .error .notOneWord
  | _ => .error .notOneWord

/-- The bytes of a value of `nbits` bits, lowest first; a value that does not fit gives none. -/
def bytesOf (nbits w : Nat) : List Byte :=
  if nbits = 8 ∧ w < 2 ^ 8 then [BitVec.ofNat 8 w]
  else if (nbits = 12 ∨ nbits = 16) ∧ w < 2 ^ 16 then [BitVec.ofNat 8 w, BitVec.ofNat 8 (w / 2 ^ 8)]
  else []

/-- What the decoder reads from an opcode-table word: 8 bits are a command byte, 12 bits (16 in whole bytes)
an operation word. -/
def decodeTableWord (nbits w : Nat) : Option Instr :=
  (decodeBytes (bytesOf nbits w)).toOption

end Sys2Proof
end

