-- ==== Sys2Proof/Machine/State.lean ====
section
/-! DEFINITION. The state of the block, the reasons a step can stop, and the state after reset
(spec/10_state.md R20 to R27, R35; spec/00_scope.md R12). The block has no memory (spec/20_memory.md R50), so State
has no memory field; the Driver Configuration is a parameter and no field of the state (spec/10_state.md R33). -/

namespace Sys2Proof.Machine

/-- The state of the machine. OUT, IR, UPC and the event trace are the block's state (00_scope.md R12). The
command constants and the host's remaining program are parameters of the spec's step relation that a step reads,
carried here because `step` takes a state and nothing else (log entries 2 and 4). The Driver Configuration, which
no step reads, stands beside the state in `Block` (R33). -/
structure State where
  /-- OUT (R20). -/
  out : Out
  /-- IR, the operation word being executed, or none (R22). -/
  ir : Option Word
  /-- UPC, the index of the next micro-operation (R23). -/
  upc : BitVec 13
  /-- The event trace, oldest first; ghost state (R27). -/
  trace : List Event
  /-- What the host has still to present, next first (R28, R35). -/
  program : List HostEntry
  /-- The command constants, fixed (30_encoding.md R91). -/
  constants : Constants
  deriving DecidableEq, Repr

/-- Faults: none of them is an exception of the block, which has none (60_exceptions.md R180). -/
inductive Fault where
  /-- Raised by `advance` when UPC is outside the micro-program of IR, a state no run reaches (R23). Safe: the
  model stops where the spec describes no step (log entry 9). -/
  | upcOutOfRange
  deriving DecidableEq, Repr

/-- Refusals: inputs to which the spec gives no meaning (00_scope.md R9). -/
inductive Refusal where
  /-- An instruction without a meaning yet; no arm of `exec` raises it. Safe. -/
  | notModelled (mnemonic : String)
  /-- Raised by `fetch` for an entry that decodes to no instruction, and by `execInit` for a display-control
  byte outside 0x0C to 0x0F (30_encoding.md R83, R87). Safe: the model stops, as the spec asks. -/
  | reservedWord (why : Reject)
  /-- Raised by `operate` when an operation is presented while another one is in IR (70_reset_and_hazards.md
  R221). The spec gives the host no such step; leaving its runs out is unsafe for a host that breaks the rule
  (log entry 7). -/
  | presentedWhileBusy
  /-- Raised by `stepInstance` when two blocks are bound to a common pin (60_exceptions.md R192). Safe: the spec
  gives such blocks no meaning. -/
  | overlappingInstances
  deriving DecidableEq, Repr

/-- The state as construction and reset leave it (R26): idle, no event, OUT at its draw, nothing started
(70_reset_and_hazards.md R211). -/
def State.fresh (constants : Constants) (draw : Out) : State :=
  { out := draw, ir := none, upc := 0#13, trace := [], program := [], constants := constants }

/-- The machine right after reset (R26). OUT holds the draw (log entry 1). CFG has no reset value and is no field of
the state: it stands beside it in `Block`, as `installedConfig` for this machine (R26, R33; log entry 2). -/
def State.reset : State := State.fresh defaultConstants outAtReset

end Sys2Proof.Machine
end

