-- ==== Sys2Proof/Machine/Ops.lean ====
section
/-! DEFINITION. The named updates of State and the operations every meaning is made of: performing a
micro-operation, accepting an operation, advancing through its micro-program (spec/10_state.md R22 to R29). The
block takes no exception at run time (spec/60_exceptions.md R180, R184), so there is no exception entry and no
return from one. -/

namespace Sys2Proof.Machine

/-- Write OUT and record the event of the write or of the delay (R21, R27). -/
def State.record (s : State) (o : Out) (e : Event) : State := { s with out := o, trace := s.trace ++ [e] }

/-- `IR <- some w; UPC <- 0` (R28). -/
def State.load (s : State) (w : Word) : State := { s with ir := some w, upc := 0#13 }

/-- `IR <- none; UPC <- 0` (R29). -/
def State.retire (s : State) : State := { s with ir := none, upc := 0#13 }

/-- `UPC <- UPC + 1` (R23, R29). -/
def State.nextMicro (s : State) : State := { s with upc := s.upc + 1#13 }

/-- The host's remaining program (R35). -/
def State.withProgram (s : State) (p : List HostEntry) : State := { s with program := p }

/-- Reset of a state that a run has led to, with a draw for OUT (R26). The constants and what the host has still to
present are parameters and stay (R35; 30_encoding.md R91). -/
def State.resetTo (s : State) (draw : Out) : State :=
  { s with out := draw, ir := none, upc := 0#13, trace := [] }

/-- Perform one micro-operation on OUT and record its event (R29; 40_bus_primitives.md R110 to R114). -/
def perform (m : MicroOp) (s : State) : State := s.record (m.write s.out) (m.event (m.write s.out))

/-- Accept an operation with operation word `w`: an empty micro-program completes at once and changes nothing,
any other is loaded (R28). -/
def accept (w : Word) (prog : List MicroOp) (s : State) : State :=
  match prog with
  | [] => s
  | _ :: _ => s.load w

/-- SEQ step: perform the micro-operation at UPC, then retire the operation after its last micro-operation or
go on to the next (R29). -/
def advance (prog : List MicroOp) (s : State) : Host.Outcome State Fault Refusal :=
  match prog[s.upc.toNat]? with
  | none => .fault .upcOutOfRange
  | some m =>
    if s.upc.toNat + 1 = prog.length then .next (perform m s).retire else .next (perform m s).nextMicro

/-- One step of an operation with operation word `w` and micro-program `prog`: its acceptance while SEQ is
idle, its next micro-operation while IR holds `w` (R28, R29; log entry 8). An operation presented while IR
holds another word has no meaning (70_reset_and_hazards.md R221). -/
def operate (w : Word) (prog : List MicroOp) (s : State) : Host.Outcome State Fault Refusal :=
  match s.ir with
  | none => .next (accept w prog s)
  | some v => if v = w then advance prog s else .refused .presentedWhileBusy

end Sys2Proof.Machine
end

