-- ==== Sys2Proof/Machine/Uprog.lean ====
section
/-! DEFINITION. The micro-programs `uprog(w)` of the operations (spec/40_bus_primitives.md R119, R120;
spec/41_init_sequence.md R140; spec/42_position_and_shift.md R150 to R152). -/

namespace Sys2Proof.Machine

/-- A transfer and the delay that stands after it (R143, R151). -/
def thenDelay (p : List MicroOp) (k : DelayClass) : List MicroOp := p ++ [MicroOp.dly k]

/-- The nine steps of the initialization sequence, in order (R140, R141). -/
def initSteps (k : Constants) (dc : Byte) : List (List MicroOp) :=
  [-- 1, reset lines
   [.rstlines],
   -- 2, power-on wait
   [.dly .pwron],
   -- 3, force the 4-bit handshake: three single nibbles (R145)
   List.flatten
     [thenDelay (frame false k.hs) .hs1, thenDelay (frame false k.hs) .hs2, thenDelay (frame false k.hs) .hs3],
   -- 4, return home
   thenDelay (byteFrames false homeByte) .home,
   -- 5, clear display
   thenDelay (byteFrames false clearByte) .clear,
   -- 6, function set
   thenDelay (byteFrames false k.fs) .fset,
   -- 7, display control
   thenDelay (byteFrames false dc) .dctl,
   -- 8, entry mode set
   thenDelay (byteFrames false k.em) .emode,
   -- 9, home cursor; no delay follows (R143)
   byteFrames false addrCmdBit]

/-- `uprog(INIT dc)`, 130 micro-operations (R140). -/
def uprogInit (k : Constants) (dc : Byte) : List MicroOp := (initSteps k dc).flatten

/-- `uprog(CMD b) = BYTE(0, b)` (R119). -/
def uprogCmd (b : Byte) : List MicroOp := byteFrames false b

/-- `uprog(DATA b) = BYTE(1, b)` (R120). -/
def uprogData (b : Byte) : List MicroOp := byteFrames true b

/-- `uprog(SETPOS row, col) = BYTE(0, addr_cmd(row, col))` (R150). -/
def uprogSetpos (row : BitVec 1) (col : Nibble) : List MicroOp := byteFrames false (addrCmd row col)

/-- A command byte and its settle delay, `times` times over (R151, R152). -/
def repeatShift (b : Byte) (times : Byte) : List MicroOp :=
  (List.replicate times.toNat (thenDelay (byteFrames false b) .shift)).flatten

/-- `uprog(SHL times)` (R151). -/
def uprogShl (k : Constants) (times : Byte) : List MicroOp := repeatShift k.shLeft times

/-- `uprog(SHR times)` (R152). -/
def uprogShr (k : Constants) (times : Byte) : List MicroOp := repeatShift k.shRight times

/-- The micro-program of an instruction; a command byte is sent as `CMD` sends it (R84, R90, R119; log
entry 5). -/
def uprog (k : Constants) : Instr → List MicroOp
  | .init dc => uprogInit k dc
  | .cmd b => uprogCmd b
  | .data b => uprogData b
  | .setpos row col => uprogSetpos row col
  | .shl times => uprogShl k times
  | .shr times => uprogShr k times
  | .clear => uprogCmd (operandByte .clear)
  | .home => uprogCmd (operandByte .home)
  | .entryMode options => uprogCmd (operandByte (.entryMode options))
  | .displayCtrl options => uprogCmd (operandByte (.displayCtrl options))
  | .cursorShift options => uprogCmd (operandByte (.cursorShift options))
  | .functionSet options => uprogCmd (operandByte (.functionSet options))
  | .setDdram address => uprogCmd (operandByte (.setDdram address))

end Sys2Proof.Machine
end

