-- ==== Sys2Proof/Machine/Bytes.lean ====
section
/-! DEFINITION. The byte operations CMD and DATA (spec/40_bus_primitives.md R119, R120). -/

namespace Sys2Proof.Machine

/-- `CMD b`: send `b` with RS = 0, high nibble first (R119). -/
def execCmd (b : Byte) (s : State) : Host.Outcome State Fault Refusal :=
  operate (wordOf (.cmd b)) (uprogCmd b) s

/-- `DATA b`: send `b` with RS = 1, high nibble first (R120). -/
def execData (b : Byte) (s : State) : Host.Outcome State Fault Refusal :=
  operate (wordOf (.data b)) (uprogData b) s

end Sys2Proof.Machine
end

