-- ==== Sys2Proof/Machine/Commands.lean ====
section
/-! DEFINITION. The controller command bytes of spec/30_encoding.md R90. The block sends such a byte with
RS = 0, as the operation `CMD` with that byte (R84, R90, R95; spec/43_host_pseudo_ops.md R161; log entry 5);
what the controller then does is outside the block (spec/00_scope.md R5 (e)). -/

namespace Sys2Proof.Machine

/-- CLEAR, 0x01, sent as `CMD 0x01` (R90, R161). -/
def execClear (s : State) : Host.Outcome State Fault Refusal :=
  operate (wordOf .clear) (uprogCmd (operandByte .clear)) s

/-- HOME, 0x02, sent as `CMD 0x02` (R90, R161). -/
def execHome (s : State) : Host.Outcome State Fault Refusal :=
  operate (wordOf .home) (uprogCmd (operandByte .home)) s

/-- ENTRY_MODE, `000001xx`, sent as `CMD` (R84, R90). -/
def execEntryMode (options : BitVec 2) (s : State) : Host.Outcome State Fault Refusal :=
  operate (wordOf (.entryMode options)) (uprogCmd (operandByte (.entryMode options))) s

/-- DISPLAY_CTRL, `00001xxx`, sent as `CMD` (R84, R90). -/
def execDisplayCtrl (options : BitVec 3) (s : State) : Host.Outcome State Fault Refusal :=
  operate (wordOf (.displayCtrl options)) (uprogCmd (operandByte (.displayCtrl options))) s

/-- CURSOR_SHIFT, `0001xx00`, sent as `CMD` (R84, R90). -/
def execCursorShift (options : BitVec 2) (s : State) : Host.Outcome State Fault Refusal :=
  operate (wordOf (.cursorShift options)) (uprogCmd (operandByte (.cursorShift options))) s

/-- FUNCTION_SET, `0010x000`, sent as `CMD` (R84, R90). The block does not enforce that function set is final
for the session (41_init_sequence.md R146). -/
def execFunctionSet (options : BitVec 1) (s : State) : Host.Outcome State Fault Refusal :=
  operate (wordOf (.functionSet options)) (uprogCmd (operandByte (.functionSet options))) s

/-- SET_DDRAM, `1aaaaaaa`, sent as `CMD`; every address is sent, also one that is the image of no display
position (R84, R90; 20_memory.md R59). -/
def execSetDdram (address : BitVec 7) (s : State) : Host.Outcome State Fault Refusal :=
  operate (wordOf (.setDdram address)) (uprogCmd (operandByte (.setDdram address))) s

end Sys2Proof.Machine
end

