-- ==== Sys2Proof/Machine/Init.lean ====
section
/-! DEFINITION. The initialization sequence INIT (spec/41_init_sequence.md R140 to R146). -/

namespace Sys2Proof.Machine

/-- `INIT dc`: the nine-step sequence (R140). A display-control byte outside 0x0C to 0x0F makes the word
reserved, and the run is refused (30_encoding.md R83, R87). -/
def execInit (dc : Byte) (s : State) : Host.Outcome State Fault Refusal :=
  if displayOn dc then operate (wordOf (.init dc)) (uprogInit s.constants dc) s
  else .refused (.reservedWord .reservedInitOperand)

end Sys2Proof.Machine
end

