-- ==== Sys2Proof/Machine/Position.lean ====
section
/-! DEFINITION. The convenience operations SETPOS, SHL and SHR (spec/42_position_and_shift.md R150 to R154). -/

namespace Sys2Proof.Machine

/-- `SETPOS row, col`: send the set-cursor-address byte of the position (R150). -/
def execSetpos (row : BitVec 1) (col : Nibble) (s : State) : Host.Outcome State Fault Refusal :=
  operate (wordOf (.setpos row col)) (uprogSetpos row col) s

/-- `SHL times`: send the shift-left byte `times` times, each followed by a delay (R151). -/
def execShl (times : Byte) (s : State) : Host.Outcome State Fault Refusal :=
  operate (wordOf (.shl times)) (uprogShl s.constants times) s

/-- `SHR times`: send the shift-right byte `times` times, each followed by a delay (R152). -/
def execShr (times : Byte) (s : State) : Host.Outcome State Fault Refusal :=
  operate (wordOf (.shr times)) (uprogShr s.constants times) s

end Sys2Proof.Machine
end

