-- ==== Sys2Proof/Machine/Dispatch.lean ====
section
/-! DEFINITION. exec: one step of an instruction, one arm for each constructor of Instr. -/

namespace Sys2Proof.Machine

/-- One step of instruction `i` in state `s`: its acceptance while SEQ is idle, its next micro-operation while
IR holds its word (spec/10_state.md R28, R29). -/
def exec (i : Instr) (s : State) : Host.Outcome State Fault Refusal :=
  match i with
  | .init dc => Sys2Proof.Machine.execInit dc s
  | .cmd b => Sys2Proof.Machine.execCmd b s
  | .data b => Sys2Proof.Machine.execData b s
  | .setpos row col => Sys2Proof.Machine.execSetpos row col s
  | .shl times => Sys2Proof.Machine.execShl times s
  | .shr times => Sys2Proof.Machine.execShr times s
  | .clear => Sys2Proof.Machine.execClear s
  | .home => Sys2Proof.Machine.execHome s
  | .entryMode options => Sys2Proof.Machine.execEntryMode options s
  | .displayCtrl options => Sys2Proof.Machine.execDisplayCtrl options s
  | .cursorShift options => Sys2Proof.Machine.execCursorShift options s
  | .functionSet options => Sys2Proof.Machine.execFunctionSet options s
  | .setDdram address => Sys2Proof.Machine.execSetDdram address s

end Sys2Proof.Machine
end

