-- ==== Sys2Proof/Machine/Fetch.lean ====
section
/-! DEFINITION. What the next step runs: the operation in IR, or the host's next entry (spec/10_state.md R28,
R29), and how an entry is placed to be presented next. -/

namespace Sys2Proof.Machine

/-- What a step finds to do. -/
inductive Fetched where
  /-- One step of instruction `i` from state `s`. -/
  | run (i : Instr) (s : State)
  /-- Nothing to present and nothing in progress (00_scope.md R13). -/
  | idle
  /-- The word or byte decodes to no instruction (R28; 30_encoding.md R87). -/
  | refuse (why : Reject)
  deriving DecidableEq, Repr

/-- A decoded instruction to run from `s`, or the reason it is refused. -/
def fetchedFrom (d : Except Reject Instr) (s : State) : Fetched :=
  match d with
  | .ok i => .run i s
  | .error why => .refuse why

/-- While IR holds a word, that word (R29); otherwise the host's next entry, which leaves its program (R28,
R35); otherwise nothing. When a host issues is its own affair, since it waits by not issuing
(70_reset_and_hazards.md R227); here an idle step issues the next entry at once, so no run has a wait between two
entries (DESIGN CHOICE, log entry 21). -/
def fetch (s : State) : Fetched :=
  match s.ir, s.program with
  | some w, _ => fetchedFrom (decode w) s
  | none, e :: rest => fetchedFrom (decodeEntry e) (s.withProgram rest)
  | none, [] => .idle

/-- The host entry of an opcode-table word: 8 bits are a command byte, otherwise an operation word, of which
the port has twelve wires (R34). -/
def entryOfTableWord (nbits w : Nat) : HostEntry :=
  if nbits = 8 then .cmdByte (BitVec.ofNat 8 w) else .opWord (BitVec.ofNat 12 w)

/-- The state in which SEQ is idle and the host's next entry is `e` (log entry 4). -/
def placeNext (s : State) (e : HostEntry) : State := s.retire.withProgram (e :: s.program)

end Sys2Proof.Machine
end

