-- ==== Sys2Proof/Machine/Step.lean ====
section
/-! DEFINITION. The step function of the machine: the HOST step and the SEQ step (spec/10_state.md R28, R29). -/

namespace Sys2Proof.Machine

/-- One step: the SEQ step while an operation is in progress, else the HOST step if an entry is left to
present; with neither, the block stays idle (R28, R29; 70_reset_and_hazards.md R211; log entry 6). -/
def step (s : State) : Host.Outcome State Fault Refusal :=
  match fetch s with
  | .run i s' => exec i s'
  | .idle => .next s
  | .refuse why => .refused (.reservedWord why)

/-- `s` with the instruction of an opcode-table word as the host's next entry and SEQ idle, so that the next
step runs it (log entry 4). -/
def State.withFetchWord (s : State) (nbits w : Nat) : State := placeNext s (entryOfTableWord nbits w)

end Sys2Proof.Machine
end

