-- ==== Sys2Proof/Machine/PinMap.lean ====
section
/-! DEFINITION. The Driver Configuration: its validity, its validation at construction and the pins it binds
(spec/10_state.md R30 to R33; spec/60_exceptions.md R181 to R183, R192). -/

namespace Sys2Proof

/-- V1, range: every bit number lies inside a port of `portWidth` pins (R31). `n <= PORT_WIDTH - 1` is written
`n < PORT_WIDTH`. -/
def RawConfig.inRange (portWidth : Nat) (r : RawConfig) : Bool :=
  decide (r.dataOff + 3 < portWidth) && decide (r.eBit < portWidth) && decide (r.rsBit < portWidth)

/-- Whether a pin is one of the four data pins, which are consecutive bits of one port (R31, V2). -/
def RawConfig.isDataPin (r : RawConfig) (port bit : Nat) : Bool :=
  decide (port = r.dataPort) && decide (r.dataOff ≤ bit) && decide (bit ≤ r.dataOff + 3)

/-- V3: neither Enable nor Register-Select is a data pin (R31). -/
def RawConfig.noOverlap (r : RawConfig) : Bool :=
  !r.isDataPin r.ePort r.eBit && !r.isDataPin r.rsPort r.rsBit

/-- V4: Enable and Register-Select are different pins (R31). -/
def RawConfig.distinct (r : RawConfig) : Bool :=
  !(decide (r.ePort = r.rsPort) && decide (r.eBit = r.rsBit))

/-- A pin map is valid when V1, V3 and V4 hold; V2 holds by construction (R31). -/
def RawConfig.valid (portWidth : Nat) (r : RawConfig) : Bool :=
  r.inRange portWidth && (r.noOverlap && r.distinct)

/-- A Driver Configuration: a pin map with the proof that it is valid, for ports of `portWidth` pins (R33,
R183). An invalid one cannot be built. -/
structure Config where
  raw : RawConfig
  portWidth : Nat
  isValid : raw.valid portWidth = true
  deriving DecidableEq, Repr

/-- Validation: V1, then V3, then V4, and the first that fails is reported (R182, R183). -/
def validate (portWidth : Nat) (r : RawConfig) : Except ConfigError Config :=
  if h1 : r.inRange portWidth = true then
    if h3 : r.noOverlap = true then
      if h4 : r.distinct = true then
        .ok { raw := r, portWidth := portWidth, isValid := by rw [RawConfig.valid, h1, h3, h4]; rfl }
      else .error .samePin
    else .error .overlap
  else .error .range

/-- The numeric code of a configuration error (R181). -/
def ConfigError.code : ConfigError → Nat
  | .range => 1
  | .overlap => 2
  | .samePin => 3

/-- The six pins a configuration binds, as (port, bit) pairs: Enable, Register-Select, D0 to D3 (R32). -/
def Config.pins (c : Config) : List (Nat × Nat) :=
  [(c.raw.ePort, c.raw.eBit), (c.raw.rsPort, c.raw.rsBit), (c.raw.dataPort, c.raw.dataOff),
   (c.raw.dataPort, c.raw.dataOff + 1), (c.raw.dataPort, c.raw.dataOff + 2), (c.raw.dataPort, c.raw.dataOff + 3)]

/-- Two configurations share no pin (60_exceptions.md R192). -/
def Config.disjoint (c d : Config) : Bool := c.pins.all fun p => !d.pins.contains p

/-- The default of PORT_WIDTH, the number of pins of a port (00_scope.md R6; log entry 3). -/
def defaultPortWidth : Nat := 8

/-- A valid configuration: data P1.4 to P1.7, Enable P1.0, Register-Select P1.1 (vector V60). -/
def pinMapV60 : Config :=
  { raw := { dataPort := 1, dataOff := 4, ePort := 1, eBit := 0, rsPort := 1, rsBit := 1 }
    portWidth := defaultPortWidth
    isValid := by decide }

/-- The configuration of the block of `Sys2Proof.core`, a parameter of that machine and valid by its type (R33;
60_exceptions.md R183). Validation lets the installed pin map through as it is; an invalid one makes no block, and
then another valid map stands here, so that every valid configuration is a possible value and no invalid one is
(log entry 3). -/
def installedConfig : Config :=
  match validate installedPortWidth installedPinMap with
  | .ok c => c
  | .error _ => pinMapV60

end Sys2Proof
end

