-- ==== Sys2Proof/Machine/Block.lean ====
section
/-! DEFINITION. A block: the machine with the Driver Configuration it was constructed with. The configuration is a
parameter beside the state and no field of it; it is valid by its type, no step writes it and reset does not touch
it (spec/10_state.md R26, R33; spec/60_exceptions.md R183; log entry 2). The machine of the spec, which takes a
configuration, is `machine`. -/

namespace Sys2Proof.Machine

/-- A block and the configuration that is its own for its whole life (R30, R33). -/
structure Block where
  /-- CFG (R30), with the proof that it is valid. -/
  cfg : Config
  state : State
  deriving DecidableEq, Repr

/-- The block as construction leaves it (R26, R33). -/
def Block.fresh (cfg : Config) (constants : Constants) (draw : Out) : Block :=
  { cfg := cfg, state := State.fresh constants draw }

/-- The block with another state. -/
def Block.withState (b : Block) (s : State) : Block := { b with state := s }

/-- Reset of a block: its state as R26 says, with a draw for OUT; CFG is not reset (R26, R33). -/
def Block.reset (b : Block) (draw : Out) : Block := b.withState (b.state.resetTo draw)

/-- The outcome for a block of an outcome for its state. -/
def Block.outcome (b : Block) (o : Host.Outcome State Fault Refusal) : Host.Outcome Block Fault Refusal :=
  match o with
  | .next t => .next (b.withState t)
  | .fault r => .fault r
  | .refused r => .refused r

/-- One step of an instruction on a block, under its own configuration (R32, R183). -/
def Block.exec (i : Instr) (b : Block) : Host.Outcome Block Fault Refusal :=
  b.outcome (Sys2Proof.Machine.exec i b.state)

/-- One step of a block, a step of its state: CFG does not enter the meaning of any operation (R32, R33). -/
def Block.step (b : Block) : Host.Outcome Block Fault Refusal := b.outcome (Sys2Proof.Machine.step b.state)

/-- `n` steps of a block, stopping at the first fault or refusal. -/
def Block.steps : Nat → Block → Host.Outcome Block Fault Refusal
  | 0, b => .next b
  | n + 1, b =>
    match b.step with
    | .next c => Block.steps n c
    | .fault r => .fault r
    | .refused r => .refused r

/-- The machine of a Driver Configuration, which carries the proof that it is valid: no machine of a block exists
without one (60_exceptions.md R183). Its states are blocks and its reset state is the block just constructed.
`exec`, `step`, `State.reset` and `Sys2Proof.core`, whose types the host's interface fixes without a parameter, are
its part that does not depend on CFG (10_state.md R32; log entry 2). -/
abbrev machine (cfg : Config) (constants : Constants) (draw : Out) : Host.Core :=
  { State := Block
    Fault := Fault
    Refusal := Refusal
    step := Block.step
    reset := Block.fresh cfg constants draw }

/-- The machine `Sys2Proof.core` belongs to: the one of its configuration, `installedConfig`, and of the constants and
the draw of `State.reset`. The core's states are those of this machine's block (R183; log entry 2). -/
abbrev installedMachine : Host.Core := machine installedConfig defaultConstants outAtReset

end Sys2Proof.Machine
end

