-- ==== Sys2Proof/Machine/Construct.lean ====
section
/-! DEFINITION. Construction of a block from a pin map, and the pins it drives (spec/60_exceptions.md R181 to
R184, R190; spec/10_state.md R32, R33). -/

namespace Sys2Proof.Machine

/-- Construct a block: an invalid pin map yields a configuration error and no block (R183); a valid one yields
the block as reset leaves it, with OUT at its draw (10_state.md R26). -/
def construct (portWidth : Nat) (r : RawConfig) (constants : Constants) (draw : Out) : Except ConfigError Block :=
  match validate portWidth r with
  | .ok c => .ok (Block.fresh c constants draw)
  | .error e => .error e

/-- The level the block drives on a physical pin, or none for a pin that is not one of its six (10_state.md R32;
92_eei_decisions.md D25). Nothing else drives them (log entry 15). -/
def pinLevel (c : Config) (o : Out) (port bit : Nat) : Option Bool :=
  if port = c.raw.ePort ∧ bit = c.raw.eBit then some o.e
  else if port = c.raw.rsPort ∧ bit = c.raw.rsBit then some o.rs
  else if c.raw.isDataPin port bit then some (o.d.getLsbD (bit - c.raw.dataOff))
  else none

end Sys2Proof.Machine
end

