-- ==== Sys2Proof/Machine/Flags.lean ====
section
/-! DEFINITION. The one status flag and the operation port as the host sees it (spec/10_state.md R24, R34). -/

namespace Sys2Proof.Machine

/-- BUSY: 1 exactly when IR is not none (R24). -/
def busy (s : State) : Bool := s.ir.isSome

/-- `op_valid`: the host presents its next entry, and only while BUSY is 0 (R28, R34). -/
def opValid (s : State) : Bool := !busy s && !s.program.isEmpty

/-- `op_word`: the word the host drives for its next entry (R34). The rule is silent on what stands there while
`op_valid` is 0; here it is the next entry's word also while BUSY is 1, and no word when nothing is left to present
(DESIGN CHOICE, log entry 23). No step reads it. -/
def opWord (s : State) : Option Word := s.program.head?.map portWord

/-- The end of a run: nothing left to present and SEQ idle (00_scope.md R13). -/
def runOver (s : State) : Bool := !busy s && s.program.isEmpty

end Sys2Proof.Machine
end

