-- ==== Sys2Proof/Machine/Instances.lean ====
section
/-! DEFINITION. Several blocks side by side, each with its own configuration, OUT, IR and UPC and no shared
state (spec/60_exceptions.md R192). -/

namespace Sys2Proof.Machine

/-- The pin sets of the blocks are pairwise disjoint (R192). -/
def pinsDisjoint : List Block → Bool
  | [] => true
  | b :: rest => (rest.all fun c => b.cfg.disjoint c.cfg) && pinsDisjoint rest

/-- One step of the `n`-th block, every other block untouched. Blocks with a common pin have no meaning (R192).
An index that names no block steps nothing (log entry 20). -/
def stepInstance (n : Nat) (blocks : List Block) : Host.Outcome (List Block) Fault Refusal :=
  if pinsDisjoint blocks then
    match blocks[n]? with
    | some b =>
      match b.step with
      | .next c => .next (blocks.set n c)
      | .fault r => .fault r
      | .refused r => .refused r
    | none => .next blocks
  else .refused .overlappingInstances

end Sys2Proof.Machine
end

