-- ==== Sys2Proof/Machine/Pseudo.lean ====
section
/-! DEFINITION. The host pseudo-operations: functions from their argument to a list of operations, computed by
the host before the operation port (spec/43_host_pseudo_ops.md R160 to R168; spec/30_encoding.md R95). -/

namespace Sys2Proof.Machine

/-- Arguments for which the spec gives no expansion. -/
inductive HostRefusal where
  /-- `PRINTI` outside [-9999, 9999] (R164), also as the integer part of `PRINTF` (R166 (c)). -/
  | integerOutOfRange
  /-- `PRINTF x` with -1 < x < 0 (R166 (b)). -/
  | negativeFraction
  /-- A string without its terminating byte 0x00 (R162; log entry 16). -/
  | unterminated
  deriving DecidableEq, Repr

/-- An exact decimal number, `coeff / 10 ^ scale` (R166 (a)). -/
structure Decimal where
  coeff : Int
  scale : Nat
  deriving DecidableEq, Repr

/-- The ASCII code of a decimal digit, `0x30 + d` (R167). -/
def digitCode (d : Nat) : Byte := BitVec.ofNat 8 (0x30 + d)

/-- The ASCII code of '-' (R167). -/
def minusCode : Byte := 0x2D#8

/-- The ASCII code of '.' (R167). -/
def pointCode : Byte := 0x2E#8

/-- Four decimal digits of `m`, leading zeros kept (R163, R165). -/
def fourDigits (m : Nat) : List Instr :=
  [.data (digitCode (m / 1000)), .data (digitCode (m / 100 % 10)), .data (digitCode (m / 10 % 10)),
   .data (digitCode (m % 10))]

/-- `PRINTS s`: one `DATA` for each byte before the first 0x00 (R162). -/
def expandPrints (s : List Byte) : Except HostRefusal (List Instr) :=
  if s.contains 0x00#8 then .ok ((s.takeWhile fun c => c != 0x00#8).map .data) else .error .unterminated

/-- `PRINTI v`: an optional minus sign and four digits (R163); refused outside its range (R164). -/
def expandPrinti (v : Int) : Except HostRefusal (List Instr) :=
  if -9999 ≤ v ∧ v ≤ 9999 then
    .ok ((if v < 0 then [.data minusCode] else []) ++ fourDigits v.natAbs)
  else .error .integerOutOfRange

/-- `trunc(x)`, toward zero (R165). -/
def Decimal.intPart (x : Decimal) : Int :=
  if x.coeff < 0 then -((x.coeff.natAbs / 10 ^ x.scale : Nat) : Int) else ((x.coeff.natAbs / 10 ^ x.scale : Nat) : Int)

/-- `trunc(r * 10000)` for the remainder `r = |x - trunc(x)|`; digits beyond the fourth are dropped (R165,
R166 (d)). -/
def Decimal.fraction (x : Decimal) : Nat := x.coeff.natAbs % 10 ^ x.scale * 10000 / 10 ^ x.scale

/-- `PRINTF x`: the integer part as `PRINTI`, a point, four truncated fractional digits (R165); refused for
-1 < x < 0 and for an integer part outside the range of `PRINTI` (R166). -/
def expandPrintf (x : Decimal) : Except HostRefusal (List Instr) :=
  if x.coeff < 0 ∧ x.intPart = 0 then .error .negativeFraction
  else
    match expandPrinti x.intPart with
    | .ok ip => .ok (ip ++ .data pointCode :: fourDigits x.fraction)
    | .error e => .error e

/-- A line of a host program: an operation or a pseudo-operation (30_encoding.md R94, R95). -/
inductive HostLine where
  | op (i : Instr)
  | clear
  | home
  | prints (s : List Byte)
  | printi (v : Int)
  | printf (x : Decimal)
  deriving DecidableEq, Repr

/-- The operations a line expands to; CLEAR is `CMD 0x01` and HOME is `CMD 0x02` (R95, R161 to R165). -/
def expandLine : HostLine → Except HostRefusal (List Instr)
  | .op i => .ok [i]
  | .clear => .ok [.cmd clearByte]
  | .home => .ok [.cmd homeByte]
  | .prints s => expandPrints s
  | .printi v => expandPrinti v
  | .printf x => expandPrintf x

/-- A host program: the list of operation words its lines denote, pseudo-operations expanded (10_state.md
R35). The spec refuses a pseudo-operation without an expansion (R164, R166) and is silent on the lines around it;
here the whole program is refused, its earlier lines too (DESIGN CHOICE, log entry 16). -/
def expandProgram : List HostLine → Except HostRefusal (List HostEntry)
  | [] => .ok []
  | l :: rest =>
    match expandLine l, expandProgram rest with
    | .ok is, .ok es => .ok (is.map (fun i => .opWord (wordOf i)) ++ es)
    | .error e, _ => .error e
    | _, .error e => .error e

end Sys2Proof.Machine
end

