-- ==== Sys2Proof/Machine/Observe.lean ====
section
/-! DEFINITION. What may be observed of a block: the waveform and the latched frames of an event trace
(spec/00_scope.md R14; spec/40_bus_primitives.md R121). -/

namespace Sys2Proof.Machine

/-- Latched frames of a trace, `pulse` telling whether an Enable pulse is already under way: one frame for each
maximal run of pin events with Enable at 1, taken from its first event (R121). -/
def latchedFrom (pulse : Bool) : List Event → List (Bool × Nibble)
  | [] => []
  | .delay _ :: rest => latchedFrom pulse rest
  | .pin v :: rest =>
    if v.e then
      if pulse then latchedFrom true rest else (v.rs, v.d) :: latchedFrom true rest
    else latchedFrom false rest

/-- The latched frames of a trace, in order (R121): all that the controller receives, which is not modelled itself
(log entry 12). -/
def latchedFrames (trace : List Event) : List (Bool × Nibble) := latchedFrom false trace

/-- The latched frames of a trace that starts with INIT, as the controller may see them from a reset draw on: the
draw is put before the trace, and a draw with Enable at 1 gives one extra frame, its own RS and data
(95_test_vectors.md section 2.4; 70_reset_and_hazards.md R223). For another first operation from such a draw this
is not the view of R223, whose extra frame is a copy of the first nibble: that one is given by `latchedFrames`
(DESIGN CHOICE, log entry 22). -/
def latchedFramesFromDraw (draw : Out) (trace : List Event) : List (Bool × Nibble) :=
  latchedFrames (.pin draw :: trace)

/-- The values of OUT that differ from the value before them (R14). -/
def changesFrom (before : Out) : List Event → List Out
  | [] => []
  | .delay _ :: rest => changesFrom before rest
  | .pin v :: rest => if v = before then changesFrom before rest else v :: changesFrom v rest

/-- The waveform: OUT before the first event, then each new value, delays dropped and repeats merged (R14). -/
def waveform (before : Out) (trace : List Event) : List Out := before :: changesFrom before trace

/-- The delay classes of a trace, in order (R27). -/
def delaysOf : List Event → List DelayClass
  | [] => []
  | .delay k :: rest => k :: delaysOf rest
  | .pin _ :: rest => delaysOf rest

/-- Whether an event writes Enable low. -/
def Event.enableLow : Event → Bool
  | .pin v => !v.e
  | .delay _ => false

/-- A pin event with Register-Select cleared, for comparing `CMD` with `DATA` (40_bus_primitives.md R122). -/
def Event.clearRs : Event → Event
  | .pin v => .pin { v with rs := false }
  | .delay k => .delay k

end Sys2Proof.Machine
end

