-- ==== Sys2Proof/Machine/Timing.lean ====
section
/-! DEFINITION. Durations: the minima of the delay classes, legal parameter values, the minimum duration of a
micro-program, and the times of a timed trace (spec/00_scope.md R6; spec/70_reset_and_hazards.md R220, R224,
R230; spec/40_bus_primitives.md R129). All in nanoseconds. The machine itself has no clock (R224; log entry
13). -/

namespace Sys2Proof

/-- `T_k` (R6). -/
def Timing.of (t : Timing) : DelayClass → Nat
  | .pwron => t.pwron
  | .hs1 => t.hs1
  | .hs2 => t.hs2
  | .hs3 => t.hs3
  | .home => t.home
  | .clear => t.clear
  | .fset => t.fset
  | .dctl => t.dctl
  | .emode => t.emode
  | .strobe => t.strobe
  | .settle => t.settle
  | .shift => t.shift

/-- The minimum of each class (R220); the spec gives none for SETTLE and SHIFT alone. -/
def DelayClass.minimum : DelayClass → Nat
  | .pwron => 15000000
  | .hs1 => 4100000
  | .hs2 => 100000
  | .hs3 => 100000
  | .home => 2000000
  | .clear => 2000000
  | .fset => 100000
  | .dctl => 100000
  | .emode => 100000
  | .strobe => 450
  | .settle => 0
  | .shift => 0

/-- The twelve delay classes. -/
def DelayClass.all : List DelayClass :=
  [.pwron, .hs1, .hs2, .hs3, .home, .clear, .fset, .dctl, .emode, .strobe, .settle, .shift]

/-- Legal parameter values: every `T_k` at or above its minimum, and a nibble cycle of at least 1 us (R6, R220);
other values are no configuration of this block (93_implementation_defined.md U5). -/
def Timing.legal (t : Timing) : Bool :=
  (DelayClass.all.all fun k => decide (k.minimum ≤ t.of k)) && decide (1000 ≤ 2 * t.strobe + t.settle)

namespace Machine

/-- The duration a micro-operation lasts at least; a pin write takes no time (R114, R230). -/
def MicroOp.minDuration (t : Timing) : MicroOp → Nat
  | .dly k => t.of k
  | .apply _ _ => 0
  | .en _ => 0
  | .retract => 0
  | .rstlines => 0

/-- The minimum duration of a micro-program, the sum of its delays (R230). -/
def minDuration (t : Timing) (p : List MicroOp) : Nat := (p.map (MicroOp.minDuration t)).sum

/-- An event with the time it took. A timed trace holds no idle time: a wait of the host between two operations
records no event (70_reset_and_hazards.md R227; log entry 21), so times are those of one operation. -/
structure TimedEvent where
  event : Event
  duration : Nat
  deriving DecidableEq, Repr

/-- A delay lasts at least `T_k` and may last longer; a pin write takes no time (R114, R224, R230). -/
def TimedEvent.legal (t : Timing) (e : TimedEvent) : Bool :=
  match e.event with
  | .pin _ => decide (e.duration = 0)
  | .delay k => decide (t.of k ≤ e.duration)

/-- The time at which the `n`-th event of a timed trace starts, the trace starting at time 0: the durations of the
events before it. -/
def startOf : Nat → List TimedEvent → Nat
  | 0, _ => 0
  | _ + 1, [] => 0
  | n + 1, e :: rest => e.duration + startOf n rest

/-- The times at which Enable changes in a timed trace, each with its new level; `level` is Enable before the
trace and `now` the time it starts. -/
def enableEdges (level : Bool) (now : Nat) : List TimedEvent → List (Bool × Nat)
  | [] => []
  | e :: rest =>
    match e.event with
    | .pin v =>
      if v.e = level then enableEdges level (now + e.duration) rest
      else (v.e, now) :: enableEdges v.e (now + e.duration) rest
    | .delay _ => enableEdges level (now + e.duration) rest

end Machine

end Sys2Proof
end

