-- ==== Sys2Proof/Machine/Run.lean ====
section
/-! DEFINITION. Several steps of one instruction, or of the machine (spec/00_scope.md R10). -/

namespace Sys2Proof.Machine

/-- `n` steps of instruction `i`, stopping at the first fault or refusal. -/
def execTimes : Nat → Instr → State → Host.Outcome State Fault Refusal
  | 0, _, s => .next s
  | n + 1, i, s =>
    match exec i s with
    | .next t => execTimes n i t
    | .fault r => .fault r
    | .refused r => .refused r

/-- `n` steps of the machine, stopping at the first fault or refusal. -/
def steps : Nat → State → Host.Outcome State Fault Refusal
  | 0, s => .next s
  | n + 1, s =>
    match step s with
    | .next t => steps n t
    | .fault r => .fault r
    | .refused r => .refused r

end Sys2Proof.Machine
end

