-- ==== Sys2Proof/Safety.lean ====
section
/-! DEFINITION. The states a run passes through: the invariant of the sequencer and the bus (spec/10_state.md R23,
R26, R29, R36; spec/40_bus_primitives.md R124). -/

namespace Sys2Proof.Machine

/-- SEQ idle: UPC is 0, and OUT is the idle pattern unless no event has been recorded since reset (R13 of
00_scope.md; R23, R36; 40_bus_primitives.md R124). -/
def IdleInv (s : State) : Prop := s.upc = 0#13 ∧ (s.out = Out.idle ∨ s.trace = [])

/-- SEQ busy with the operation word `w`: `w` decodes, UPC lies inside its micro-program (R23), and OUT and the
trace are what the micro-operations before UPC left, from an OUT `o` that was the idle pattern unless this is
the first operation to record an event (R29, R36). -/
def BusyInv (s : State) (w : Word) : Prop :=
  ∃ i o before,
    decode w = .ok i ∧
    s.upc.toNat < (uprog s.constants i).length ∧
    s.out = outAfter o ((uprog s.constants i).take s.upc.toNat) ∧
    s.trace = before ++ eventsOf o ((uprog s.constants i).take s.upc.toNat) ∧
    (o = Out.idle ∨ before = [])

/-- The invariant of every state a run passes through. -/
def RunInv (s : State) : Prop :=
  match s.ir with
  | none => IdleInv s
  | some w => BusyInv s w

/-- Instruction `i` runs as the operation with operation word `w` and micro-program `prog`: from every idle state
it is accepted (or completes at once when `prog` is empty), and from every state with `w` in IR and UPC inside
`prog` it performs the micro-operation at UPC; everything not named stays as it was (10_state.md R28, R29). -/
def RunsAs (i : Instr) (w : Word) (prog : Constants → List MicroOp) : Prop :=
  ∀ s : State,
    (s.ir = none → prog s.constants = [] → exec i s = .next s) ∧
    (s.ir = none → prog s.constants ≠ [] → exec i s = .next { s with ir := some w, upc := 0#13 }) ∧
    (∀ m, s.ir = some w → (prog s.constants)[s.upc.toNat]? = some m →
      exec i s = .next
        { s with
          out := m.write s.out
          trace := s.trace ++ [m.event (m.write s.out)]
          ir := if s.upc.toNat + 1 = (prog s.constants).length then none else some w
          upc := if s.upc.toNat + 1 = (prog s.constants).length then 0#13 else s.upc + 1#13 })

/-- Enable has been written 0 at least once since reset (40_bus_primitives.md R125). -/
def enableWasLow (s : State) : Bool := s.trace.any Event.enableLow

end Sys2Proof.Machine
end

