-- ==== Sys2Proof/Certificates/Slice0/Obligations.lean ====
section
/-! DEFINITION. The statements about the model, for the provers. Micro-programs are written out here once more
from the spec's own listings, so that a statement about an operation does not quote the model's table of
micro-programs. -/

open Sys2Proof Sys2Proof.Machine

/-- `FRAME(rs, n)` as spec/40_bus_primitives.md R117 lists its eight micro-operations. -/
def Sys2Proof.Machine.listedFrame (rs : Bool) (n : Nibble) : List MicroOp :=
  [.apply rs n, .en false, .dly .strobe, .en true, .dly .strobe, .en false, .dly .settle, .retract]

/-- `BYTE(rs, b)` as R118 and R53 give it: the frame of `(b >> 4) & 0xF`, then the frame of `b & 0xF`. -/
def Sys2Proof.Machine.listedByte (rs : Bool) (b : Byte) : List MicroOp :=
  listedFrame rs (((b >>> 4) &&& 0x0F#8).setWidth 4) ++ listedFrame rs ((b &&& 0x0F#8).setWidth 4)

/-- A byte and its settle delay, `n` times over (R151, R152). -/
def Sys2Proof.Machine.listedShifts (b : Byte) : Nat → List MicroOp
  | 0 => []
  | n + 1 => listedByte false b ++ MicroOp.dly .shift :: listedShifts b n

/-- The micro-program of INIT step by step, as the table of spec/41_init_sequence.md R141 lists it. -/
def Sys2Proof.Machine.listedInit (k : Constants) (dc : Byte) : List MicroOp :=
  List.flatten
    [[.rstlines], [.dly .pwron],
     listedFrame false k.hs, [.dly .hs1], listedFrame false k.hs, [.dly .hs2], listedFrame false k.hs, [.dly .hs3],
     listedByte false 0x02#8, [.dly .home], listedByte false 0x01#8, [.dly .clear], listedByte false k.fs, [.dly .fset],
     listedByte false dc, [.dly .dctl], listedByte false k.em, [.dly .emode], listedByte false 0x80#8]

/-! ## Encodings -/

/-- Words written out from the spec's encodings decode to the instructions they stand for
(spec/30_encoding.md R97; spec/95_test_vectors.md section 2.7). -/
def Obligations.SpecWordsDecode : Prop :=
  decode 0x00E#12 = .ok (.init 0x0E#8) ∧ decode 0x128#12 = .ok (.cmd 0x28#8) ∧
  decode 0x241#12 = .ok (.data 0x41#8) ∧ decode 0x315#12 = .ok (.setpos 1#1 5#4) ∧
  decode 0x403#12 = .ok (.shl 3#8) ∧ decode 0x502#12 = .ok (.shr 2#8) ∧
  decode 0x008#12 = .error .reservedInitOperand ∧ decode 0x345#12 = .error .reservedSetposOperand ∧
  decode 0x600#12 = .error .reservedOpc ∧
  decodeCommand 0x06#8 = .ok (.entryMode 2#2) ∧ decodeCommand 0xC5#8 = .ok (.setDdram 0x45#7)

/-- Decoding the encoding of any well-formed instruction, of either format, gives it back. -/
def Obligations.DecodeAfterEncodeIsIdentity : Prop :=
  ∀ i : Instr, i.wf = true → decodeEntry (encode i) = .ok i

/-- Every entry that decodes is the encoding of the well-formed instruction it decodes to: no two words of one
format mean the same, and no operand bit is lost. -/
def Obligations.DecodedEntriesEncodeBack : Prop :=
  ∀ (e : HostEntry) (i : Instr), decodeEntry e = .ok i → i.wf = true ∧ encode i = e

/-- The reserved words are the ones R87 lists; each decodes to a refusal, and a run that comes to one is
refused, in every state (R87). -/
def Obligations.ReservedWordsAreRefused : Prop :=
  ∀ w : Word,
    ((∃ why, decode w = .error why) ↔
      (6 ≤ (w.extractLsb' 8 4).toNat ∨
       (w.extractLsb' 8 4 = 0x0#4 ∧ ¬ (0x0C ≤ (w.extractLsb' 0 8).toNat ∧ (w.extractLsb' 0 8).toNat ≤ 0x0F)) ∨
       (w.extractLsb' 8 4 = 0x3#4 ∧ w.extractLsb' 5 3 ≠ 0#3))) ∧
    ∀ (why : Reject) (s : State) (rest : List HostEntry), decode w = .error why → s.ir = none →
      s.program = .opWord w :: rest → step s = .refused (.reservedWord why)

/-- A command byte of the opcode table is presented at the port as the operation `CMD` with that byte, and one
step of it is one step of that operation (R90, R95; model's reading, log entry 5). -/
def Obligations.CommandBytesArePresentedAsCmd : Prop :=
  ∀ i : Instr, isCommandClass i = true →
    encode i = .cmdByte (operandByte i) ∧ portWord (encode i) = wordOf i ∧
    decode (wordOf i) = .ok (.cmd (operandByte i)) ∧ ∀ s, exec i s = exec (.cmd (operandByte i)) s

/-- The bus frame `{1, rs, n}` is what stands on the six signals during the pulse of `FRAME(rs, n)`, with the
6-bit value `0x20 | (rs << 4) | n`; the two nibbles of a byte put together are the byte, and the high one goes
first (R88, R89). -/
def Obligations.BusFrameAndNibbleSplit : Prop :=
  (∀ (o : Out) (rs : Bool) (n : Nibble),
    (eventsOf o (frame rs n))[3]? = some (.pin (busFrame rs n)) ∧
    (busFrame rs n).toBits = 0x20#6 ||| ((BitVec.ofBool rs).setWidth 6 <<< 4) ||| n.setWidth 6) ∧
  ∀ b : Byte, hi b = ((b >>> 4) &&& 0x0F#8).setWidth 4 ∧ lo b = (b &&& 0x0F#8).setWidth 4 ∧ hi b ++ lo b = b ∧
    ∀ (o : Out) (rs : Bool), o.e = false →
      latchedFrames (eventsOf o (byteFrames rs b)) = [(rs, hi b), (rs, lo b)]

/-! ## The step -/

/-- A step runs the decoded instruction: the host's next entry while SEQ is idle, after it has left the host's
program; the word in IR while SEQ is busy (10_state.md R28, R29); and with neither, the state stays as it is. Two
points are the model's: that an idle step with nothing to present leaves the state as it is (DEDUCED, log entry
6), and that exec is one step of an operation, its acceptance or its next micro-operation (DESIGN CHOICE, log
entry 8). -/
def Obligations.StepRunsTheDecodedInstruction : Prop :=
  ∀ s : State,
    (∀ e rest i, s.ir = none → s.program = e :: rest → decodeEntry e = .ok i →
      step s = exec i { s with program := rest }) ∧
    (∀ w i, s.ir = some w → decode w = .ok i → step s = exec i s) ∧
    (s.ir = none → s.program = [] → step s = .next s)

/-- The step after `withFetchWord` runs exactly the instruction the table word decodes to, from the state with
SEQ idle and everything else as it was (log entry 4). -/
def Obligations.PlacedTableWordRunsNext : Prop :=
  ∀ (s : State) (nbits w : Nat) (i : Instr), decodeTableWord nbits w = some i →
    step (s.withFetchWord nbits w) = exec i { s with ir := none, upc := 0#13 }

/-- The HOST step, issue (R28): a word that does not decode is refused; an operation with the empty
micro-program, which only `SHL 0` and `SHR 0` have, completes at once and changes nothing but what the host has
left to present; any other is loaded into IR with UPC 0. While IR holds a word, the host presents nothing. -/
def Obligations.IssueLoadsTheOperationWord : Prop :=
  ∀ s : State,
    (∀ w rest, s.ir = none → s.program = .opWord w :: rest →
      (∀ why, decode w = .error why → step s = .refused (.reservedWord why)) ∧
      (∀ i, decode w = .ok i →
        (uprog s.constants i = [] ↔ i = .shl 0#8 ∨ i = .shr 0#8) ∧
        (uprog s.constants i = [] → step s = .next { s with program := rest }) ∧
        (uprog s.constants i ≠ [] →
          step s = .next { s with ir := some w, upc := 0#13, program := rest }))) ∧
    (s.ir ≠ none → opValid s = false ∧ ∀ t, step s = .next t → t.program = s.program)

/-- BUSY is 1 exactly when IR is not none; it is set by the acceptance of an operation whose micro-program is not
empty, and cleared by the step that performs the last micro-operation (R24). -/
def Obligations.BusyIsSetAtAcceptanceAndClearedAtTheEnd : Prop :=
  ∀ s t : State, step s = .next t →
    (busy s = true ↔ s.ir ≠ none) ∧
    (busy s = false → s.program = [] → busy t = false) ∧
    (∀ w rest i, busy s = false → s.program = .opWord w :: rest → decode w = .ok i →
      (busy t = true ↔ uprog s.constants i ≠ [])) ∧
    (∀ w i, s.ir = some w → decode w = .ok i →
      (busy t = false ↔ s.upc.toNat + 1 = (uprog s.constants i).length))

/-- The SEQ step, perform (R29): the micro-operation at UPC is performed and its event recorded; then IR becomes
none and UPC 0 after the last one, and UPC goes up by 1 after any other. Nothing else changes. -/
def Obligations.SeqStepPerformsTheMicroOpAtUpc : Prop :=
  ∀ (s : State) (w : Word) (i : Instr) (m : MicroOp), s.ir = some w → decode w = .ok i →
    (uprog s.constants i)[s.upc.toNat]? = some m →
    ∃ t, step s = .next t ∧ t.out = m.write s.out ∧ t.trace = s.trace ++ [m.event t.out] ∧
      (s.upc.toNat + 1 = (uprog s.constants i).length → t.ir = none ∧ t.upc = 0#13) ∧
      (s.upc.toNat + 1 ≠ (uprog s.constants i).length → t.ir = some w ∧ t.upc = s.upc + 1#13) ∧
      t.program = s.program ∧ t.constants = s.constants

/-- What each micro-operation writes when a step performs it, field by field, and the event it records: APPLY
writes RS and D, EN writes E, RETRACT clears RS and D, RSTLINES, which is only ever the first of INIT, clears E
and RS, DLY writes nothing (R110 to R114). -/
def Obligations.MicroOpsWriteExactlyTheirFields : Prop :=
  ∀ (s : State) (w : Word) (i : Instr) (m : MicroOp), s.ir = some w → decode w = .ok i →
    (uprog s.constants i)[s.upc.toNat]? = some m →
    ∃ t, step s = .next t ∧
      (∀ rs n, m = .apply rs n →
        t.out.e = s.out.e ∧ t.out.rs = rs ∧ t.out.d = n ∧ t.trace = s.trace ++ [.pin t.out]) ∧
      (∀ v, m = .en v →
        t.out.e = v ∧ t.out.rs = s.out.rs ∧ t.out.d = s.out.d ∧ t.trace = s.trace ++ [.pin t.out]) ∧
      (m = .retract →
        t.out.e = s.out.e ∧ t.out.rs = false ∧ t.out.d = 0#4 ∧ t.trace = s.trace ++ [.pin t.out]) ∧
      (m = .rstlines →
        t.out.e = false ∧ t.out.rs = false ∧ t.out.d = s.out.d ∧ t.trace = s.trace ++ [.pin t.out] ∧
        s.upc = 0#13 ∧ ∃ dc, i = .init dc) ∧
      (∀ k, m = .dly k → t.out = s.out ∧ t.trace = s.trace ++ [.delay k])

/-- The trace gets one event for each micro-operation performed: `Delay(k)` for a `DLY(k)`, which leaves OUT alone,
and `Pin` with the value of OUT after it for any other, whether or not that value is new; a step while SEQ is
idle, an acceptance among them, records nothing and writes no pin (R27). -/
def Obligations.TraceHasOneEventPerMicroOp : Prop :=
  ∀ s t : State, step s = .next t →
    (s.ir = none → t.trace = s.trace ∧ t.out = s.out) ∧
    ∀ w i, s.ir = some w → decode w = .ok i →
      ∃ m ev, (uprog s.constants i)[s.upc.toNat]? = some m ∧ t.trace = s.trace ++ [ev] ∧
        ((∃ k, m = .dly k ∧ ev = .delay k ∧ t.out = s.out) ∨ ((∀ k, m ≠ .dly k) ∧ ev = .pin t.out))

/-- UPC fits its register and never wraps: no micro-program is longer than 4335, and a step of a busy SEQ sets
UPC to 0 or to its successor (R23). -/
def Obligations.MicroStepCounterNeverWraps : Prop :=
  (∀ (k : Constants) (i : Instr), (uprog k i).length ≤ 4335) ∧
  ∀ s t : State, RunInv s → s.ir ≠ none → step s = .next t →
    (t.ir = none ∧ t.upc = 0#13) ∨
    (t.ir = s.ir ∧ t.upc.toNat = s.upc.toNat + 1 ∧ t.upc.toNat < 4335)

/-! ## The operations -/

/-- `CMD b` runs as BYTE(0, b) under the word `0x100 | b`, and `DATA b` as BYTE(1, b) under `0x200 | b` (R119,
R120). -/
def Obligations.CmdAndDataSendTwoFrames : Prop :=
  ∀ b : Byte,
    RunsAs (.cmd b) (0x100#12 ||| b.setWidth 12) (fun _ => listedByte false b) ∧
    RunsAs (.data b) (0x200#12 ||| b.setWidth 12) (fun _ => listedByte true b)

/-- `SETPOS row, col` runs as BYTE(0, `0x80 | (row ? 0x40 : 0) | col`) under the word `0x300 | (row << 4) | col`,
which decodes to it; the byte is `{1, row, 0b00, col}`, the set-cursor-address command of DDRAM address
`(row ? 0x40 : 0) + col`; a word of this operation code with `opd[7:5]` not 0 is refused (R150, R85, R58). -/
def Obligations.SetposSendsTheAddressCommand : Prop :=
  (∀ (row : BitVec 1) (col : Nibble),
    RunsAs (.setpos row col) (0x300#12 ||| (row.setWidth 12 <<< 4) ||| col.setWidth 12)
      (fun _ => listedByte false (0x80#8 ||| (if row = 1#1 then 0x40#8 else 0x00#8) ||| col.setWidth 8)) ∧
    decode (0x300#12 ||| (row.setWidth 12 <<< 4) ||| col.setWidth 12) = .ok (.setpos row col) ∧
    addrCmd row col = 1#1 ++ (row ++ (0b00#2 ++ col)) ∧
    (ddramAddr row col).toNat = (if row = 1#1 then 0x40 else 0x00) + col.toNat) ∧
  ∀ w : Word, w.extractLsb' 8 4 = 0x3#4 → w.extractLsb' 5 3 ≠ 0b000#3 →
    decode w = .error .reservedSetposOperand

/-- `SHL n` and `SHR n` run as `n` times BYTE(0, SH_LEFT) or BYTE(0, SH_RIGHT) with a SHIFT delay after each, under
the words `0x400 | n` and `0x500 | n`; for `n = 0` the operation completes at once (R151, R152). -/
def Obligations.ShiftsRepeatTheirCommand : Prop :=
  ∀ n : Byte,
    RunsAs (.shl n) (0x400#12 ||| n.setWidth 12) (fun k => listedShifts k.shLeft n.toNat) ∧
    RunsAs (.shr n) (0x500#12 ||| n.setWidth 12) (fun k => listedShifts k.shRight n.toNat)

/-- `INIT dc`, for `dc` from 0x0C to 0x0F, runs as the nine steps of R140 and R141 under the word `0x000 | dc`. -/
def Obligations.InitRunsTheNineSteps : Prop :=
  ∀ dc : Byte, 0x0C ≤ dc.toNat → dc.toNat ≤ 0x0F →
    RunsAs (.init dc) (dc.setWidth 12) (fun k => listedInit k dc)

/-- `INIT` with a display-control byte outside 0x0C to 0x0F is refused in every state (R83, R87). -/
def Obligations.InitRefusesReservedOperands : Prop :=
  ∀ (dc : Byte) (s : State), ¬ (0x0C ≤ dc.toNat ∧ dc.toNat ≤ 0x0F) →
    exec (.init dc) s = .refused (.reservedWord .reservedInitOperand)

/-- Each controller command byte of the opcode table runs as BYTE(0, b) of the byte its pattern gives, under the
operation word `0x100 | b` (R90, R92; model's reading that the host sends it with CMD, log entry 5). -/
def Obligations.CommandBytesAreSentAsTheirByte : Prop :=
  RunsAs .clear 0x101#12 (fun _ => listedByte false 0x01#8) ∧
  RunsAs .home 0x102#12 (fun _ => listedByte false 0x02#8) ∧
  (∀ o : BitVec 2,
    RunsAs (.entryMode o) (0x104#12 ||| o.setWidth 12) (fun _ => listedByte false (0x04#8 ||| o.setWidth 8))) ∧
  (∀ o : BitVec 3,
    RunsAs (.displayCtrl o) (0x108#12 ||| o.setWidth 12) (fun _ => listedByte false (0x08#8 ||| o.setWidth 8))) ∧
  (∀ o : BitVec 2,
    RunsAs (.cursorShift o) (0x110#12 ||| (o.setWidth 12 <<< 2))
      (fun _ => listedByte false (0x10#8 ||| (o.setWidth 8 <<< 2)))) ∧
  (∀ o : BitVec 1,
    RunsAs (.functionSet o) (0x120#12 ||| (o.setWidth 12 <<< 3))
      (fun _ => listedByte false (0x20#8 ||| (o.setWidth 8 <<< 3)))) ∧
  (∀ a : BitVec 7,
    RunsAs (.setDdram a) (0x180#12 ||| a.setWidth 12) (fun _ => listedByte false (0x80#8 ||| a.setWidth 8)))

/-- An operation presented while IR holds another word is refused, whatever the operation (R221 gives it no
meaning; the model's refusal, log entry 7). -/
def Obligations.OperationPresentedWhileBusyIsRefused : Prop :=
  ∀ (i : Instr) (s : State) (v : Word), i.wf = true → s.ir = some v → v ≠ wordOf i →
    exec i s = .refused .presentedWhileBusy

/-- An operation, once accepted, is performed to its last micro-operation, in order and without a skip: after
one acceptance and as many steps as its micro-program is long, SEQ is idle again, OUT is what the whole list
leaves and the trace has grown by the events of the whole list, and nothing else has changed. Said of the
instruction's own steps, and of the machine's steps from the word the host presents (R128). -/
def Obligations.OperationRunsToCompletion : Prop :=
  ∀ (i : Instr) (s : State), i.wf = true → s.ir = none → uprog s.constants i ≠ [] →
    execTimes (1 + (uprog s.constants i).length) i s = .next
      { s with
        out := outAfter s.out (uprog s.constants i)
        trace := s.trace ++ eventsOf s.out (uprog s.constants i)
        upc := 0#13 } ∧
    ∀ w rest, decode w = .ok i → s.program = .opWord w :: rest →
      steps (1 + (uprog s.constants i).length) s = .next
        { s with
          out := outAfter s.out (uprog s.constants i)
          trace := s.trace ++ eventsOf s.out (uprog s.constants i)
          upc := 0#13
          program := rest }

/-- A host program runs in program order: from an idle state, after one step for each entry and one for each of
its micro-operations, nothing is left to present, SEQ is idle, and the trace has grown by the events of the
micro-programs one after the other; it depends on the program, the constants and the OUT it started from alone
(20_memory.md R60; a command byte counts as the CMD it is sent as, log entry 5). The number of steps is that of a
host that does not wait between entries (DESIGN CHOICE, log entry 21). -/
def Obligations.HostProgramRunsInOrder : Prop :=
  ∀ (is : List Instr) (s : State), (∀ i ∈ is, i.wf = true) → s.ir = none → s.upc = 0#13 →
    s.program = is.map encode →
    steps (is.length + ((is.map (uprog s.constants)).flatten).length) s = .next
      { s with
        out := outAfter s.out ((is.map (uprog s.constants)).flatten)
        trace := s.trace ++ eventsOf s.out ((is.map (uprog s.constants)).flatten)
        program := [] }

/-- From every state of a run in which an operation is in progress, it finishes: after at most 4335 steps of the
machine SEQ is idle, OUT is the idle pattern, and every step before was a next state (R225; the durations of
the delays are outside the model, log entry 13). -/
def Obligations.OperationInProgressFinishes : Prop :=
  ∀ s : State, RunInv s → s.ir ≠ none →
    ∃ n t, n ≤ 4335 ∧ steps n s = .next t ∧ t.ir = none ∧ t.upc = 0#13 ∧ t.out = Out.idle ∧
      t.program = s.program

/-! ## Laws of the bus -/

/-- From a state with OUT.E = 0 a frame has one Enable pulse, which latches (rs, n), and from OUT.E = 1 one
extra copy comes first; a run of `CMD b` latches exactly the two nibbles of `b` with RS = 0, high first, a run
of `DATA b` the same with RS = 1, and the traces of the two are equal once RS is cleared (R122). -/
def Obligations.ByteOperationsLatchHighThenLow : Prop :=
  (∀ (o : Out) (rs : Bool) (n : Nibble),
    (o.e = false → latchedFrames (eventsOf o (frame rs n)) = [(rs, n)]) ∧
    (o.e = true → latchedFrames (eventsOf o (frame rs n)) = [(rs, n), (rs, n)])) ∧
  ∀ (s : State) (b : Byte), s.ir = none →
    ∃ t u evc evd,
      execTimes 17 (.cmd b) s = .next t ∧ t.ir = none ∧ t.trace = s.trace ++ evc ∧
      execTimes 17 (.data b) s = .next u ∧ u.ir = none ∧ u.trace = s.trace ++ evd ∧
      evd.map Event.clearRs = evc.map Event.clearRs ∧
      (s.out.e = false →
        latchedFrames evc = [(false, b.extractLsb' 4 4), (false, b.extractLsb' 0 4)] ∧
        latchedFrames evd = [(true, b.extractLsb' 4 4), (true, b.extractLsb' 0 4)])

/-- A run of `INIT dc` with the default constants, from any OUT, records 130 events and latches the fifteen
frames of R142, all with RS = 0; its nine long delays stand at the UPC values of R141, and its delays in order are
those of R142: two strobe delays and a settle delay in each frame, and the long delays between frames. -/
def Obligations.InitLatchesFifteenFrames : Prop :=
  ∀ (s : State) (dc : Byte), 0x0C ≤ dc.toNat → dc.toNat ≤ 0x0F → s.ir = none →
    s.constants = defaultConstants →
    ∃ t ev, execTimes 131 (.init dc) s = .next t ∧ t.ir = none ∧ t.out = Out.idle ∧
      t.trace = s.trace ++ ev ∧ ev.length = 130 ∧
      latchedFrames ev =
        ([0x2#4, 0x2#4, 0x2#4, 0x0#4, 0x2#4, 0x0#4, 0x1#4, 0x2#4, 0x8#4, 0x0#4, dc.extractLsb' 0 4, 0x0#4, 0x6#4,
          0x8#4, 0x0#4] : List Nibble).map (fun n => (false, n)) ∧
      ev[1]? = some (.delay .pwron) ∧ ev[10]? = some (.delay .hs1) ∧ ev[19]? = some (.delay .hs2) ∧
      ev[28]? = some (.delay .hs3) ∧ ev[45]? = some (.delay .home) ∧ ev[62]? = some (.delay .clear) ∧
      ev[79]? = some (.delay .fset) ∧ ev[96]? = some (.delay .dctl) ∧ ev[113]? = some (.delay .emode) ∧
      (let inFrame : List DelayClass := [.strobe, .strobe, .settle]
       delaysOf ev =
         .pwron :: inFrame ++ .hs1 :: inFrame ++ .hs2 :: inFrame ++ .hs3 :: inFrame ++ inFrame ++
         .home :: inFrame ++ inFrame ++ .clear :: inFrame ++ inFrame ++ .fset :: inFrame ++ inFrame ++
         .dctl :: inFrame ++ inFrame ++ .emode :: inFrame ++ inFrame) ∧
      (delaysOf ev).count .strobe = 30 ∧ (delaysOf ev).count .settle = 15 ∧ (delaysOf ev).length = 54

/-- Two runs of `INIT dc` from idle states with the same constants differ at most in their first event, which
shows the data lines as they were with Enable and Register-Select low; both end idle with OUT = 0x00 (R144). -/
def Obligations.InitForgetsTheStateOfThePins : Prop :=
  ∀ (s u : State) (dc : Byte), (Instr.init dc).wf = true → s.ir = none → u.ir = none →
    s.constants = u.constants →
    ∃ s' u' rest,
      execTimes 131 (.init dc) s = .next s' ∧ execTimes 131 (.init dc) u = .next u' ∧
      s'.trace = s.trace ++ .pin { e := false, rs := false, d := s.out.d } :: rest ∧
      u'.trace = u.trace ++ .pin { e := false, rs := false, d := u.out.d } :: rest ∧
      s'.out = Out.idle ∧ u'.out = Out.idle ∧ s'.ir = none ∧ u'.ir = none

/-- The equivalences of R154: SETPOS has the trace of the CMD of its byte; SHL n then SHL m has the trace of
SHL (n + m), and so for SHR; SHL 1 has the trace of CMD 0x18 and one SHIFT delay; the latched frames of SHL n
and SHR n are n times those of 0x18 and 0x1C. -/
def Obligations.ConvenienceOperationsAreEquivalent : Prop :=
  (∀ (k : Constants) (o : Out) (row : BitVec 1) (col : Nibble),
    eventsOf o (uprog k (.setpos row col)) = eventsOf o (uprog k (.cmd (addrCmd row col)))) ∧
  (∀ (k : Constants) (o : Out) (n m : Byte), n.toNat + m.toNat ≤ 255 →
    eventsOf o (uprog k (.shl (n + m))) =
      eventsOf o (uprog k (.shl n)) ++ eventsOf (outAfter o (uprog k (.shl n))) (uprog k (.shl m)) ∧
    eventsOf o (uprog k (.shr (n + m))) =
      eventsOf o (uprog k (.shr n)) ++ eventsOf (outAfter o (uprog k (.shr n))) (uprog k (.shr m))) ∧
  (∀ o : Out, eventsOf o (uprog defaultConstants (.shl 1#8)) =
    eventsOf o (uprog defaultConstants (.cmd 0x18#8)) ++ [.delay .shift]) ∧
  (∀ (o : Out) (n : Byte), o.e = false →
    latchedFrames (eventsOf o (uprog defaultConstants (.shl n))) =
      (List.replicate n.toNat [(false, 0x1#4), (false, 0x8#4)]).flatten ∧
    latchedFrames (eventsOf o (uprog defaultConstants (.shr n))) =
      (List.replicate n.toNat [(false, 0x1#4), (false, 0xC#4)]).flatten)

/-- After any completed operation with a non-empty micro-program OUT is the idle pattern, whatever OUT was
before; and in every idle state of a run OUT is the idle pattern or no event has been recorded since reset
(R124). -/
def Obligations.IdlePatternAfterEveryOperation : Prop :=
  (∀ (i : Instr) (s : State), i.wf = true → s.ir = none → uprog s.constants i ≠ [] →
    ∃ t, execTimes (1 + (uprog s.constants i).length) i s = .next t ∧ t.ir = none ∧ t.out = Out.idle) ∧
  ∀ s : State, RunInv s → s.ir = none → s.out = Out.idle ∨ s.trace = []

/-- Once Enable has been written 0 after reset, a step that changes RS or D has Enable at 0 before and after it
(R125). -/
def Obligations.PinsAreStableDuringAPulse : Prop :=
  ∀ s t : State, RunInv s → enableWasLow s = true → step s = .next t →
    (t.out.rs ≠ s.out.rs ∨ t.out.d ≠ s.out.d) → s.out.e = false ∧ t.out.e = false

/-! ## Whole-machine rules -/

/-- The invariant holds after reset, for all constants and every draw, whatever state the reset finds; and in every
block that construction yields (R26). -/
def Obligations.InvariantHoldsAfterReset : Prop :=
  RunInv State.reset ∧ (∀ (k : Constants) (draw : Out), RunInv (State.fresh k draw)) ∧
  (∀ (b : Block) (draw : Out), RunInv (b.reset draw).state) ∧
  ∀ (portWidth : Nat) (r : RawConfig) (k : Constants) (draw : Out) (b : Block),
    construct portWidth r k draw = .ok b → RunInv b.state

/-- Every step from a state with the invariant leads to a state with the invariant. -/
def Obligations.EveryStepKeepsTheInvariant : Prop :=
  ∀ s t : State, RunInv s → step s = .next t → RunInv t

/-- Reset starts nothing: from reset, and from construction with any draw, any number of steps leaves the block
as it is, idle with IR none, UPC 0, BUSY 0 and an empty trace (70_reset_and_hazards.md R211, 10_state.md R26). The
host presents nothing in these runs: both states have an empty host program. That a step of an idle block with
nothing to present leaves the state as it is, is the model's reading (DEDUCED, log entry 6). -/
def Obligations.ResetStartsNothing : Prop :=
  (∀ n, steps n State.reset = .next State.reset) ∧
  (∀ (n : Nat) (c : Config) (k : Constants) (draw : Out),
    steps n (State.fresh k draw) = .next (State.fresh k draw) ∧
    (Block.fresh c k draw).steps n = .next (Block.fresh c k draw)) ∧
  State.reset.ir = none ∧ State.reset.upc = 0#13 ∧ busy State.reset = false ∧ State.reset.trace = []

/-- No step of a run raises anything: it never ends in a fault, and it is refused only when the host presents a
word that decodes to nothing (R180). -/
def Obligations.NoStepRaisesAnException : Prop :=
  ∀ s : State, RunInv s →
    (∀ f, step s ≠ .fault f) ∧
    ∀ r, step s = .refused r →
      s.ir = none ∧ ∃ e rest why, s.program = e :: rest ∧ decodeEntry e = .error why ∧ r = .reservedWord why

/-- The configuration of a block is fixed for its life: no number of steps and no reset changes it (R33). No step
changes the command constants, and a step takes at most one entry from the host's program, its first, and only
while SEQ is idle (R91, R35). -/
def Obligations.ConfigurationNeverChanges : Prop :=
  (∀ (n : Nat) (b c : Block), b.steps n = .next c → c.cfg = b.cfg) ∧
  (∀ (b : Block) (draw : Out), (b.reset draw).cfg = b.cfg) ∧
  ∀ s t : State, step s = .next t →
    t.constants = s.constants ∧
    (t.program = s.program ∨ (s.ir = none ∧ ∃ e, s.program = e :: t.program))

/-- The pin map does not enter the meaning of any instruction: any number of steps of a block with another one end
the same and keep that one, and they are the steps of the block's state alone (R32, R33). -/
def Obligations.SequencingIgnoresThePinMap : Prop :=
  ∀ (n : Nat) (b : Block) (c : Config),
    (∀ t, b.steps n = .next t →
      Block.steps n { b with cfg := c } = .next { t with cfg := c } ∧ steps n b.state = .next t.state) ∧
    (∀ f, b.steps n = .fault f → Block.steps n { b with cfg := c } = .fault f ∧ steps n b.state = .fault f) ∧
    (∀ r, b.steps n = .refused r → Block.steps n { b with cfg := c } = .refused r ∧ steps n b.state = .refused r)

/-- While an operation is in progress the host has no influence on it: whatever it has still to present, the
step does the same (R68). -/
def Obligations.BusyStepIgnoresTheHost : Prop :=
  ∀ (s t : State) (p : List HostEntry), s.ir ≠ none → step s = .next t →
    step { s with program := p } = .next { t with program := p }

/-- Nothing flows from the pins into the block: two states that differ in OUT alone take steps that differ in
OUT and in the pin values of the trace alone (R52, R21). -/
def Obligations.SequencingIgnoresOut : Prop :=
  ∀ (s t : State) (o : Out), step s = .next t →
    ∃ t', step { s with out := o } = .next t' ∧ t'.ir = t.ir ∧ t'.upc = t.upc ∧ t'.program = t.program ∧
      t'.constants = t.constants ∧ delaysOf t'.trace = delaysOf t.trace ∧
      t'.trace.length = t.trace.length

/-- A step of one block leaves every other block as it is, and the pin sets stay disjoint (R192). -/
def Obligations.InstancesShareNoState : Prop :=
  ∀ (n : Nat) (blocks after : List Block), stepInstance n blocks = .next after →
    after.length = blocks.length ∧ pinsDisjoint after = true ∧
    (∀ m, m ≠ n → after[m]? = blocks[m]?) ∧
    ∀ b, blocks[n]? = some b → ∃ c, step b.state = .next c.state ∧ c.cfg = b.cfg ∧ after[n]? = some c

/-! ## Construction -/

/-- Validation accepts exactly the pin maps with V1, V3 and V4 and reports the first of them that fails, with
the codes 1, 2, 3; a configuration error yields no block (R181, R182; 10_state.md R31). -/
def Obligations.ValidationReportsTheFirstFailure : Prop :=
  ∀ (portWidth : Nat) (r : RawConfig) (k : Constants) (draw : Out),
    let v1 := ((r.dataOff + 3 : Int) ≤ (portWidth : Int) - 1 ∧ (r.eBit : Int) ≤ (portWidth : Int) - 1 ∧
      (r.rsBit : Int) ≤ (portWidth : Int) - 1)
    let v3 := ((r.ePort = r.dataPort → r.eBit < r.dataOff ∨ r.dataOff + 3 < r.eBit) ∧
      (r.rsPort = r.dataPort → r.rsBit < r.dataOff ∨ r.dataOff + 3 < r.rsBit))
    let v4 := ¬ (r.ePort = r.rsPort ∧ r.eBit = r.rsBit)
    (¬ v1 → validate portWidth r = .error .range ∧ construct portWidth r k draw = .error .range) ∧
    (v1 → ¬ v3 → validate portWidth r = .error .overlap ∧ construct portWidth r k draw = .error .overlap) ∧
    (v1 → v3 → ¬ v4 → validate portWidth r = .error .samePin ∧ construct portWidth r k draw = .error .samePin) ∧
    (v1 → v3 → v4 → ∃ c, validate portWidth r = .ok c ∧ c.raw = r ∧ c.portWidth = portWidth ∧
      construct portWidth r k draw = .ok (Block.fresh c k draw)) ∧
    ConfigError.range.code = 1 ∧ ConfigError.overlap.code = 2 ∧ ConfigError.samePin.code = 3

/-- A machine exists only for a valid configuration (R183): construction yields the reset state of the machine of that
configuration when the pin map is valid, and an error and no block when it is not. A run of that machine keeps its
configuration, ends as the run of the bare state ends, and a step of it that runs an instruction is that
instruction's step under it. The core machine has such a configuration, `installedConfig`: its reset state is that of
the machine of this configuration, and its runs are the runs of that machine's block, in all three outcomes. -/
def Obligations.MachineExistsOnlyForAValidPinMap : Prop :=
  (∀ (portWidth : Nat) (r : RawConfig) (k : Constants) (draw : Out),
    (r.valid portWidth = true → ∃ c : Config, c.raw = r ∧ c.portWidth = portWidth ∧
      construct portWidth r k draw = .ok (machine c k draw).reset) ∧
    (r.valid portWidth = false → ∃ e, construct portWidth r k draw = .error e)) ∧
  (∀ (c : Config) (k : Constants) (draw : Out) (n : Nat) (b t : Block), (machine c k draw).run n b = .next t →
    t.cfg = b.cfg ∧ steps n b.state = .next t.state) ∧
  (∀ (b : Block) (w : Word) (i : Instr), b.state.ir = some w → decode w = .ok i → b.step = b.exec i) ∧
  installedConfig.raw.valid installedConfig.portWidth = true ∧
  Sys2Proof.core.reset = (Block.fresh installedConfig defaultConstants outAtReset).state ∧
  ∀ (n : Nat) (s : State),
    (∀ t : State, Sys2Proof.core.run n s = .next t ↔
      installedMachine.run n { cfg := installedConfig, state := s } = .next { cfg := installedConfig, state := t }) ∧
    (∀ f : Fault, Sys2Proof.core.run n s = .fault f ↔
      installedMachine.run n { cfg := installedConfig, state := s } = .fault f) ∧
    (∀ r : Refusal, Sys2Proof.core.run n s = .refused r ↔
      installedMachine.run n { cfg := installedConfig, state := s } = .refused r)

/-- A valid configuration puts each of the six signals on its own pin, the nibble in its natural order from
`data_off` up, and no other pin is driven (R32). -/
def Obligations.SixPinsCarryTheSixSignals : Prop :=
  ∀ (c : Config) (o : Out),
    pinLevel c o c.raw.ePort c.raw.eBit = some o.e ∧
    pinLevel c o c.raw.rsPort c.raw.rsBit = some o.rs ∧
    (∀ i, i < 4 → pinLevel c o c.raw.dataPort (c.raw.dataOff + i) = some (o.d.getLsbD i)) ∧
    (∀ port bit, (port, bit) ∉ c.pins → pinLevel c o port bit = none) ∧
    c.pins.Nodup

/-! ## Timing -/

/-- Micro-operations, Enable pulses and minimum duration of each operation, with F = 2*T_STROBE + T_SETTLE
(R230). -/
def Obligations.OperationDurations : Prop :=
  ∀ (t : Timing) (k : Constants) (o : Out), o.e = false →
    (∀ rs n, (frame rs n).length = 8 ∧ (latchedFrames (eventsOf o (frame rs n))).length = 1 ∧
      minDuration t (frame rs n) = 2 * t.strobe + t.settle) ∧
    (∀ i : Instr, (∃ b, i = .cmd b) ∨ (∃ b, i = .data b) ∨ (∃ row col, i = .setpos row col) →
      (uprog k i).length = 16 ∧ (latchedFrames (eventsOf o (uprog k i))).length = 2 ∧
      minDuration t (uprog k i) = 2 * (2 * t.strobe + t.settle)) ∧
    (∀ (n : Byte) (i : Instr), i = .shl n ∨ i = .shr n →
      (uprog k i).length = 17 * n.toNat ∧ (latchedFrames (eventsOf o (uprog k i))).length = 2 * n.toNat ∧
      minDuration t (uprog k i) = n.toNat * (2 * (2 * t.strobe + t.settle) + t.shift)) ∧
    (∀ dc, (uprog k (.init dc)).length = 130 ∧
      (latchedFrames (eventsOf o (uprog k (.init dc)))).length = 15 ∧
      ((∀ c, c ≠ .strobe → c ≠ .settle → c ≠ .shift → t.of c = c.minimum) →
        minDuration t (uprog k (.init dc)) = 23600000 + 15 * (2 * t.strobe + t.settle)))

/-- Time inside the frame whose eight events start at index `k` of the timed events `l`, with the durations `d₁`,
`d₂` of its strobe delays and `d₃` of its settle delay, Enable rising at `rise` and falling at `fall`: the nibble
is presented at event `k`, at least `d₁` before Enable rises, stands on the pins until it is retracted by event
`k + 7`, the pulse lasts at least `d₂`, and the nibble is held at least `d₃` after Enable falls; the three
durations are at or above their minima (R129). -/
def Sys2Proof.Machine.frameTimes (t : Timing) (l : List TimedEvent) (k : Nat) (rs : Bool) (n : Nibble)
    (rise fall d₁ d₂ d₃ : Nat) : Prop :=
  l[k + 2]? = some { event := .delay .strobe, duration := d₁ } ∧
  l[k + 4]? = some { event := .delay .strobe, duration := d₂ } ∧
  l[k + 6]? = some { event := .delay .settle, duration := d₃ } ∧
  t.strobe ≤ d₁ ∧ t.strobe ≤ d₂ ∧ 450 ≤ d₂ ∧ t.settle ≤ d₃ ∧
  (∀ j x v, j < 7 → l[k + j]? = some x → x.event = .pin v → v.rs = rs ∧ v.d = n) ∧
  startOf k l + d₁ ≤ rise ∧ rise + d₂ ≤ fall ∧ fall + d₃ ≤ startOf (k + 7) l

/-- Time inside a byte, for every legal parameter values and every legal durations: Enable has exactly two
pulses; in each of the two frames the nibble is presented at least the first strobe delay before Enable rises,
the pulse lasts at least the second, not less than 450 ns, and the nibble is held at least the settle delay after
Enable falls, none of the three below its minimum; and from one rising edge to the next at least the first
frame's second strobe delay and settle delay and the second frame's first strobe delay pass, not less than 1 us
(R129). -/
def Obligations.TimeInsideAByte : Prop :=
  ∀ (t : Timing) (o : Out) (rs : Bool) (b : Byte) (l : List TimedEvent), t.legal = true → o.e = false →
    l.map (·.event) = eventsOf o (byteFrames rs b) → (∀ x ∈ l, x.legal t = true) →
    ∃ rise₁ fall₁ rise₂ fall₂ d₁ d₂ d₃ d₁' d₂' d₃',
      enableEdges false 0 l = [(true, rise₁), (false, fall₁), (true, rise₂), (false, fall₂)] ∧
      frameTimes t l 0 rs (hi b) rise₁ fall₁ d₁ d₂ d₃ ∧
      frameTimes t l 8 rs (lo b) rise₂ fall₂ d₁' d₂' d₃' ∧
      rise₁ + (d₂ + d₃ + d₁') ≤ rise₂ ∧ rise₁ + 1000 ≤ rise₂

/-! ## Host pseudo-operations -/

/-- `PRINTS` sends the bytes before the first 0x00 in order, each once, and not the terminator (R162). -/
def Obligations.PrintsSendsEachCharacterOnce : Prop :=
  ∀ text after : List Byte, 0x00#8 ∉ text →
    expandPrints (text ++ 0x00#8 :: after) = .ok (text.map .data)

/-- `PRINTI v` sends a minus sign exactly when `v < 0` and then the four decimal digits of `|v|`, leading zeros
kept, each as its ASCII code; outside [-9999, 9999] it has no expansion (R163, R164). -/
def Obligations.PrintiSendsSignAndFourDigits : Prop :=
  ∀ v : Int,
    (-9999 ≤ v ∧ v ≤ 9999 → ∃ d₃ d₂ d₁ d₀ : Nat, d₃ ≤ 9 ∧ d₂ ≤ 9 ∧ d₁ ≤ 9 ∧ d₀ ≤ 9 ∧
      v.natAbs = 1000 * d₃ + 100 * d₂ + 10 * d₁ + d₀ ∧
      expandPrinti v = .ok ((if v < 0 then [.data 0x2D#8] else []) ++
        [.data (0x30#8 + BitVec.ofNat 8 d₃), .data (0x30#8 + BitVec.ofNat 8 d₂),
         .data (0x30#8 + BitVec.ofNat 8 d₁), .data (0x30#8 + BitVec.ofNat 8 d₀)])) ∧
    (¬ (-9999 ≤ v ∧ v ≤ 9999) → expandPrinti v = .error .integerOutOfRange)

/-- `PRINTF x`, for `x = c / 10^s` with integer part `±ip`, sends `PRINTI` of the integer part, a point and the
four digits of the largest `f` with `f / 10000 <= |x| - ip`: truncation, never rounding (R165). For
-1 < x < 0, and for an integer part outside the range of `PRINTI`, it has no expansion (R166). That these are the
only numbers without an expansion, so that 9999.99999 is printed as 9999.9999, is the model's reading of R165 and
R166 (DEDUCED, log entry 16). -/
def Obligations.PrintfTruncatesToFourDigits : Prop :=
  ∀ (c : Int) (s ip r : Nat), c.natAbs = ip * 10 ^ s + r → r < 10 ^ s →
    (c < 0 ∧ ip = 0 → expandPrintf { coeff := c, scale := s } = .error .negativeFraction) ∧
    (9999 < ip → expandPrintf { coeff := c, scale := s } = .error .integerOutOfRange) ∧
    (ip ≤ 9999 → ¬ (c < 0 ∧ ip = 0) →
      ∃ f d₃ d₂ d₁ d₀ ipText, f * 10 ^ s ≤ r * 10000 ∧ r * 10000 < (f + 1) * 10 ^ s ∧
        d₃ ≤ 9 ∧ d₂ ≤ 9 ∧ d₁ ≤ 9 ∧ d₀ ≤ 9 ∧ f = 1000 * d₃ + 100 * d₂ + 10 * d₁ + d₀ ∧
        expandPrinti (if c < 0 then -(ip : Int) else (ip : Int)) = .ok ipText ∧
        expandPrintf { coeff := c, scale := s } = .ok (ipText ++ .data 0x2E#8 ::
          [.data (0x30#8 + BitVec.ofNat 8 d₃), .data (0x30#8 + BitVec.ofNat 8 d₂),
           .data (0x30#8 + BitVec.ofNat 8 d₁), .data (0x30#8 + BitVec.ofNat 8 d₀)]))
end

