-- ==== Sys2Proof/Laws/State.lean ====
section
/-! SUPPORT. The named updates of State, field by field, so that no proof unfolds a record update. -/

namespace Sys2Proof.Machine

@[simp] theorem State.record_out (s : State) (o : Out) (e : Event) : (s.record o e).out = o := rfl
@[simp] theorem State.record_ir (s : State) (o : Out) (e : Event) : (s.record o e).ir = s.ir := rfl
@[simp] theorem State.record_upc (s : State) (o : Out) (e : Event) : (s.record o e).upc = s.upc := rfl
@[simp] theorem State.record_trace (s : State) (o : Out) (e : Event) : (s.record o e).trace = s.trace ++ [e] := rfl
@[simp] theorem State.record_program (s : State) (o : Out) (e : Event) : (s.record o e).program = s.program := rfl
@[simp] theorem State.record_constants (s : State) (o : Out) (e : Event) : (s.record o e).constants = s.constants := rfl

@[simp] theorem State.load_out (s : State) (w : Word) : (s.load w).out = s.out := rfl
@[simp] theorem State.load_ir (s : State) (w : Word) : (s.load w).ir = some w := rfl
@[simp] theorem State.load_upc (s : State) (w : Word) : (s.load w).upc = 0#13 := rfl
@[simp] theorem State.load_trace (s : State) (w : Word) : (s.load w).trace = s.trace := rfl
@[simp] theorem State.load_program (s : State) (w : Word) : (s.load w).program = s.program := rfl
@[simp] theorem State.load_constants (s : State) (w : Word) : (s.load w).constants = s.constants := rfl

@[simp] theorem State.retire_out (s : State) : (s.retire).out = s.out := rfl
@[simp] theorem State.retire_ir (s : State) : (s.retire).ir = none := rfl
@[simp] theorem State.retire_upc (s : State) : (s.retire).upc = 0#13 := rfl
@[simp] theorem State.retire_trace (s : State) : (s.retire).trace = s.trace := rfl
@[simp] theorem State.retire_program (s : State) : (s.retire).program = s.program := rfl
@[simp] theorem State.retire_constants (s : State) : (s.retire).constants = s.constants := rfl

@[simp] theorem State.nextMicro_out (s : State) : (s.nextMicro).out = s.out := rfl
@[simp] theorem State.nextMicro_ir (s : State) : (s.nextMicro).ir = s.ir := rfl
@[simp] theorem State.nextMicro_upc (s : State) : (s.nextMicro).upc = s.upc + 1#13 := rfl
@[simp] theorem State.nextMicro_trace (s : State) : (s.nextMicro).trace = s.trace := rfl
@[simp] theorem State.nextMicro_program (s : State) : (s.nextMicro).program = s.program := rfl
@[simp] theorem State.nextMicro_constants (s : State) : (s.nextMicro).constants = s.constants := rfl

@[simp] theorem State.withProgram_out (s : State) (p : List HostEntry) : (s.withProgram p).out = s.out := rfl
@[simp] theorem State.withProgram_ir (s : State) (p : List HostEntry) : (s.withProgram p).ir = s.ir := rfl
@[simp] theorem State.withProgram_upc (s : State) (p : List HostEntry) : (s.withProgram p).upc = s.upc := rfl
@[simp] theorem State.withProgram_trace (s : State) (p : List HostEntry) : (s.withProgram p).trace = s.trace := rfl
@[simp] theorem State.withProgram_program (s : State) (p : List HostEntry) : (s.withProgram p).program = p := rfl
@[simp] theorem State.withProgram_constants (s : State) (p : List HostEntry) : (s.withProgram p).constants = s.constants := rfl

@[simp] theorem State.fresh_out (k : Constants) (draw : Out) : (State.fresh k draw).out = draw := rfl
@[simp] theorem State.fresh_ir (k : Constants) (draw : Out) : (State.fresh k draw).ir = none := rfl
@[simp] theorem State.fresh_upc (k : Constants) (draw : Out) : (State.fresh k draw).upc = 0#13 := rfl
@[simp] theorem State.fresh_trace (k : Constants) (draw : Out) : (State.fresh k draw).trace = [] := rfl
@[simp] theorem State.fresh_program (k : Constants) (draw : Out) : (State.fresh k draw).program = [] := rfl
@[simp] theorem State.fresh_constants (k : Constants) (draw : Out) : (State.fresh k draw).constants = k := rfl

@[simp] theorem State.resetTo_out (s : State) (draw : Out) : (s.resetTo draw).out = draw := rfl
@[simp] theorem State.resetTo_ir (s : State) (draw : Out) : (s.resetTo draw).ir = none := rfl
@[simp] theorem State.resetTo_upc (s : State) (draw : Out) : (s.resetTo draw).upc = 0#13 := rfl
@[simp] theorem State.resetTo_trace (s : State) (draw : Out) : (s.resetTo draw).trace = [] := rfl
@[simp] theorem State.resetTo_program (s : State) (draw : Out) : (s.resetTo draw).program = s.program := rfl
@[simp] theorem State.resetTo_constants (s : State) (draw : Out) : (s.resetTo draw).constants = s.constants := rfl

end Sys2Proof.Machine
end

