-- ==== Sys2Proof/Laws/Ops.lean ====
section
/-! SUPPORT. What the shared operations can do, one lemma for each, cited in place of their definitions. -/

namespace Sys2Proof.Machine

@[simp] theorem perform_out (m : MicroOp) (s : State) : (perform m s).out = m.write s.out := rfl
@[simp] theorem perform_ir (m : MicroOp) (s : State) : (perform m s).ir = s.ir := rfl
@[simp] theorem perform_upc (m : MicroOp) (s : State) : (perform m s).upc = s.upc := rfl
@[simp] theorem perform_trace (m : MicroOp) (s : State) :
    (perform m s).trace = s.trace ++ [m.event (m.write s.out)] := rfl
@[simp] theorem perform_program (m : MicroOp) (s : State) : (perform m s).program = s.program := rfl
@[simp] theorem perform_constants (m : MicroOp) (s : State) : (perform m s).constants = s.constants := rfl

@[simp] theorem accept_nil (w : Word) (s : State) : accept w [] s = s := rfl
@[simp] theorem accept_cons (w : Word) (m : MicroOp) (p : List MicroOp) (s : State) :
    accept w (m :: p) s = s.load w := rfl

theorem accept_of_ne_nil {w : Word} {prog : List MicroOp} {s : State} (h : prog ≠ []) :
    accept w prog s = s.load w := by
  cases prog with
  | nil => exact absurd rfl h
  | cons m p => rfl

/-- The state after one micro-operation of a program of `len` micro-operations. -/
theorem advance_eq {prog : List MicroOp} {s : State} {m : MicroOp} (h : prog[s.upc.toNat]? = some m) :
    advance prog s =
      .next (if s.upc.toNat + 1 = prog.length then (perform m s).retire else (perform m s).nextMicro) := by
  simp only [advance, h]
  split <;> rfl

/-- Everything `advance` can do when it answers a next state. -/
theorem advance_next {prog : List MicroOp} {s t : State} (h : advance prog s = .next t) :
    ∃ m, prog[s.upc.toNat]? = some m ∧
      ((s.upc.toNat + 1 = prog.length ∧ t = (perform m s).retire) ∨
       (s.upc.toNat + 1 ≠ prog.length ∧ t = (perform m s).nextMicro)) := by
  cases hm : prog[s.upc.toNat]? with
  | none => simp [advance, hm] at h
  | some m =>
    rw [advance_eq hm] at h
    refine ⟨m, rfl, ?_⟩
    split at h <;> simp_all

theorem operate_idle {w : Word} {prog : List MicroOp} {s : State} (h : s.ir = none) :
    operate w prog s = .next (accept w prog s) := by simp [operate, h]

theorem operate_own {w : Word} {prog : List MicroOp} {s : State} (h : s.ir = some w) :
    operate w prog s = advance prog s := by simp [operate, h]

theorem operate_other {w v : Word} {prog : List MicroOp} {s : State} (h : s.ir = some v) (hv : v ≠ w) :
    operate w prog s = .refused .presentedWhileBusy := by simp [operate, h, hv]

/-- Everything `operate` can do when it answers a next state: an acceptance while idle, or the next
micro-operation of its own word. -/
theorem operate_next {w : Word} {prog : List MicroOp} {s t : State} (h : operate w prog s = .next t) :
    (s.ir = none ∧ t = accept w prog s) ∨ (s.ir = some w ∧ advance prog s = .next t) := by
  cases hi : s.ir with
  | none => rw [operate_idle hi] at h; simp_all
  | some v =>
    by_cases hv : v = w
    · subst hv; rw [operate_own hi] at h; exact .inr ⟨rfl, h⟩
    · rw [operate_other hi hv] at h; cases h

end Sys2Proof.Machine
end

