-- ==== Sys2Proof/Laws/Block.lean ====
section
/-! SUPPORT. A block, field by field, and everything a step of a block can do. -/

namespace Sys2Proof.Machine

@[simp] theorem Block.fresh_cfg (c : Config) (k : Constants) (draw : Out) : (Block.fresh c k draw).cfg = c := rfl
@[simp] theorem Block.fresh_state (c : Config) (k : Constants) (draw : Out) :
    (Block.fresh c k draw).state = State.fresh k draw := rfl
@[simp] theorem Block.withState_cfg (b : Block) (s : State) : (b.withState s).cfg = b.cfg := rfl
@[simp] theorem Block.withState_state (b : Block) (s : State) : (b.withState s).state = s := rfl
@[simp] theorem Block.reset_cfg (b : Block) (draw : Out) : (b.reset draw).cfg = b.cfg := rfl
@[simp] theorem Block.reset_state (b : Block) (draw : Out) : (b.reset draw).state = b.state.resetTo draw := rfl

/-- A step of a block is a step of its state under the same configuration, and nothing else. -/
theorem Block.step_next {b c : Block} : b.step = .next c ↔ c.cfg = b.cfg ∧ Sys2Proof.Machine.step b.state = .next c.state := by
  obtain ⟨ccfg, cs⟩ := c
  cases h : Sys2Proof.Machine.step b.state <;> simp [Block.step, Block.outcome, h, Block.withState, eq_comm]

/-- The steps of a block are the steps of its state, under the configuration it has. -/
theorem Block.steps_eq (n : Nat) (b : Block) : b.steps n = b.outcome (Sys2Proof.Machine.steps n b.state) := by
  induction n generalizing b with
  | zero => rfl
  | succ n ih =>
    simp only [Block.steps, Block.step, Sys2Proof.Machine.steps]
    cases Sys2Proof.Machine.step b.state with
    | next t => exact ih (b.withState t)
    | fault r => rfl
    | refused r => rfl

/-- A run of the machine of a configuration is the steps of its block. -/
theorem machine_run (c : Config) (k : Constants) (draw : Out) (n : Nat) (b : Block) :
    (machine c k draw).run n b = b.steps n := by
  induction n generalizing b with
  | zero => rfl
  | succ n ih =>
    simp only [Host.Core.run, Block.steps]
    cases b.step with
    | next t => exact ih t
    | fault r => rfl
    | refused r => rfl

/-- A run of the core machine is the steps of its state. -/
theorem core_run (n : Nat) (s : State) : Sys2Proof.core.run n s = Sys2Proof.Machine.steps n s := by
  induction n generalizing s with
  | zero => rfl
  | succ n ih =>
    simp only [Host.Core.run, Sys2Proof.core, Sys2Proof.Machine.steps]
    cases Sys2Proof.Machine.step s with
    | next t => exact ih t
    | fault r => rfl
    | refused r => rfl

end Sys2Proof.Machine
end

