-- ==== Sys2Proof/Laws/Micro.lean ====
section
/-! SUPPORT. Micro-programs: OUT and events over concatenation, the composites, and the lengths of the
micro-programs. -/

namespace Sys2Proof.Machine

@[simp] theorem outAfter_nil (o : Out) : outAfter o [] = o := rfl
@[simp] theorem outAfter_cons (o : Out) (m : MicroOp) (p : List MicroOp) :
    outAfter o (m :: p) = outAfter (m.write o) p := rfl
@[simp] theorem eventsOf_nil (o : Out) : eventsOf o [] = [] := rfl
@[simp] theorem eventsOf_cons (o : Out) (m : MicroOp) (p : List MicroOp) :
    eventsOf o (m :: p) = m.event (m.write o) :: eventsOf (m.write o) p := rfl

theorem outAfter_append (o : Out) (p q : List MicroOp) : outAfter o (p ++ q) = outAfter (outAfter o p) q := by
  induction p generalizing o with
  | nil => rfl
  | cons m p ih => exact ih (m.write o)

theorem eventsOf_append (o : Out) (p q : List MicroOp) :
    eventsOf o (p ++ q) = eventsOf o p ++ eventsOf (outAfter o p) q := by
  induction p generalizing o with
  | nil => rfl
  | cons m p ih => simp [ih]

@[simp] theorem eventsOf_length (o : Out) (p : List MicroOp) : (eventsOf o p).length = p.length := by
  induction p generalizing o with
  | nil => rfl
  | cons m p ih => simp [ih]

@[simp] theorem frame_length (rs : Bool) (n : Nibble) : (frame rs n).length = 8 := rfl
@[simp] theorem byteFrames_length (rs : Bool) (b : Byte) : (byteFrames rs b).length = 16 := rfl

/-- A frame leaves the idle pattern, whatever OUT was (40_bus_primitives.md R117). -/
@[simp] theorem outAfter_frame (o : Out) (rs : Bool) (n : Nibble) : outAfter o (frame rs n) = Out.idle := rfl
@[simp] theorem outAfter_byteFrames (o : Out) (rs : Bool) (b : Byte) :
    outAfter o (byteFrames rs b) = Out.idle := rfl

@[simp] theorem thenDelay_length (p : List MicroOp) (k : DelayClass) : (thenDelay p k).length = p.length + 1 := by
  simp [thenDelay]

@[simp] theorem uprogInit_length (k : Constants) (dc : Byte) : (uprogInit k dc).length = 130 := by
  simp [uprogInit, initSteps]

@[simp] theorem repeatShift_length (b times : Byte) : (repeatShift b times).length = 17 * times.toNat := by
  simp [repeatShift, List.length_flatten, Nat.mul_comm]

/-- A frame in front of a trace, from OUT with Enable low: its one latched frame comes first (R121, R117). -/
theorem latchedFrom_frame (o : Out) (rs : Bool) (n : Nibble) (h : o.e = false) (es : List Event) :
    latchedFrom false (eventsOf o (frame rs n) ++ es) = (rs, n) :: latchedFrom false es := by
  simp [frame, strobe, MicroOp.event, MicroOp.write, latchedFrom, h]

/-- A byte in front of a trace, from OUT with Enable low: its two latched frames come first. -/
theorem latchedFrom_byteFrames (o : Out) (rs : Bool) (b : Byte) (h : o.e = false) (es : List Event) :
    latchedFrom false (eventsOf o (byteFrames rs b) ++ es) = (rs, hi b) :: (rs, lo b) :: latchedFrom false es := by
  rw [byteFrames, eventsOf_append, List.append_assoc, latchedFrom_frame _ _ _ h, latchedFrom_frame]
  rfl

@[simp] theorem Out.idle_e : Out.idle.e = false := rfl

/-- The latched frames of one frame, and of one byte, from the idle pattern, with and without a trace after it. -/
@[simp] theorem latchedFrom_idle_frame (rs : Bool) (n : Nibble) :
    latchedFrom false (eventsOf Out.idle (frame rs n)) = [(rs, n)] := rfl
@[simp] theorem latchedFrom_idle_frame_append (rs : Bool) (n : Nibble) (es : List Event) :
    latchedFrom false (eventsOf Out.idle (frame rs n) ++ es) = (rs, n) :: latchedFrom false es := rfl
@[simp] theorem latchedFrom_idle_byteFrames (rs : Bool) (b : Byte) :
    latchedFrom false (eventsOf Out.idle (byteFrames rs b)) = [(rs, hi b), (rs, lo b)] := rfl
@[simp] theorem latchedFrom_idle_byteFrames_append (rs : Bool) (b : Byte) (es : List Event) :
    latchedFrom false (eventsOf Out.idle (byteFrames rs b) ++ es) =
      (rs, hi b) :: (rs, lo b) :: latchedFrom false es := rfl

theorem delaysOf_append (p q : List Event) : delaysOf (p ++ q) = delaysOf p ++ delaysOf q := by
  induction p with
  | nil => rfl
  | cons e p ih => cases e <;> simp [delaysOf, ih]

/-- The delays of a byte: two strobe delays and a settle delay in each frame. -/
theorem delaysOf_byteFrames (o : Out) (rs : Bool) (b : Byte) :
    delaysOf (eventsOf o (byteFrames rs b)) = [.strobe, .strobe, .settle, .strobe, .strobe, .settle] := rfl

theorem latchedFrom_append_pin (pulse : Bool) (p q : List Event) (v : Out) :
    latchedFrom pulse (p ++ .pin v :: q) = latchedFrom pulse (p ++ [.pin v]) ++ latchedFrom v.e q := by
  induction p generalizing pulse with
  | nil => cases h : v.e <;> cases pulse <;> simp [latchedFrom, h]
  | cons e p ih => cases e with
    | delay k => exact ih pulse
    | pin u => cases h : u.e <;> cases pulse <;> simp [latchedFrom, h, ih]

end Sys2Proof.Machine
end

