-- ==== Sys2Proof/Laws/PerInstr.lean ====
section
/-! SUPPORT. Per-instruction families: statements about an instruction as syntax, one lemma for each
constructor. -/

namespace Sys2Proof.Laws.MatchesTable

/-- Mask and match of an instruction's row in spec/opcode_table.json, written out from the table. -/
def row : Instr → Nat × Nat
  | .init _ => (0xFFC, 0x00C)
  | .cmd _ => (0xF00, 0x100)
  | .data _ => (0xF00, 0x200)
  | .setpos _ _ => (0xFE0, 0x300)
  | .shl _ => (0xF00, 0x400)
  | .shr _ => (0xF00, 0x500)
  | .clear => (0xFF, 0x01)
  | .home => (0xFF, 0x02)
  | .entryMode _ => (0xFC, 0x04)
  | .displayCtrl _ => (0xF8, 0x08)
  | .cursorShift _ => (0xF3, 0x10)
  | .functionSet _ => (0xF7, 0x20)
  | .setDdram _ => (0x80, 0x80)

/-- The bits of an entry, as the table numbers them. -/
def bits : HostEntry → Nat
  | .opWord w => w.toNat
  | .cmdByte b => b.toNat

/-- The encoding of a well-formed instruction has the fixed bits of its row in the opcode table. -/
def Statement (i : Instr) : Prop := i.wf = true → bits (encode i) &&& (row i).1 = (row i).2

theorem init (dc : Byte) : Statement (.init dc) := by revert dc; unfold Statement; decide
theorem cmd (b : Byte) : Statement (.cmd b) := by revert b; unfold Statement; decide
theorem data (b : Byte) : Statement (.data b) := by revert b; unfold Statement; decide
theorem setpos (row : BitVec 1) (col : Nibble) : Statement (.setpos row col) := by
  revert row col; unfold Statement; decide
theorem shl (times : Byte) : Statement (.shl times) := by revert times; unfold Statement; decide
theorem shr (times : Byte) : Statement (.shr times) := by revert times; unfold Statement; decide
theorem clear : Statement .clear := by unfold Statement; decide
theorem home : Statement .home := by unfold Statement; decide
theorem entryMode (options : BitVec 2) : Statement (.entryMode options) := by revert options; unfold Statement; decide
theorem displayCtrl (options : BitVec 3) : Statement (.displayCtrl options) := by
  revert options; unfold Statement; decide
theorem cursorShift (options : BitVec 2) : Statement (.cursorShift options) := by
  revert options; unfold Statement; decide
theorem functionSet (options : BitVec 1) : Statement (.functionSet options) := by
  revert options; unfold Statement; decide
theorem setDdram (address : BitVec 7) : Statement (.setDdram address) := by revert address; unfold Statement; decide

end Sys2Proof.Laws.MatchesTable
end

