-- ==== Sys2Proof/Laws/Step.lean ====
section
/-! SUPPORT. The meanings as `operate`, and what a step of the machine can do. -/

namespace Sys2Proof.Machine

/-- Every meaning is `operate` on its own word and micro-program, but for `INIT` with a reserved operand. -/
theorem exec_eq_operate {i : Instr} (h : ∀ dc, i = .init dc → displayOn dc = true) (s : State) :
    exec i s = operate (wordOf i) (uprog s.constants i) s := by
  cases i with
  | init dc => simp [exec, execInit, uprog, h dc rfl]
  | cmd _ => rfl
  | data _ => rfl
  | setpos _ _ => rfl
  | shl _ => rfl
  | shr _ => rfl
  | clear => rfl
  | home => rfl
  | entryMode _ => rfl
  | displayCtrl _ => rfl
  | cursorShift _ => rfl
  | functionSet _ => rfl
  | setDdram _ => rfl

/-- The display-control operand of a well-formed `INIT` (30_encoding.md R83). -/
theorem displayOn_eq_wf (dc : Byte) : displayOn dc = (Instr.init dc).wf := by
  revert dc; decide

theorem exec_eq_operate_of_wf {i : Instr} (h : i.wf = true) (s : State) :
    exec i s = operate (wordOf i) (uprog s.constants i) s := by
  refine exec_eq_operate (fun dc hi => ?_) s
  rw [displayOn_eq_wf, ← hi, h]

theorem fetch_busy {s : State} {w : Word} (h : s.ir = some w) : fetch s = fetchedFrom (decode w) s := by
  simp [fetch, h]

theorem fetch_issue {s : State} {e : HostEntry} {rest : List HostEntry} (h : s.ir = none)
    (hp : s.program = e :: rest) : fetch s = fetchedFrom (decodeEntry e) (s.withProgram rest) := by
  simp [fetch, h, hp]

theorem fetch_idle {s : State} (h : s.ir = none) (hp : s.program = []) : fetch s = .idle := by
  simp [fetch, h, hp]

/-- Everything a step can do when it answers a next state: stay idle, run the host's next entry, or run the
operation in IR. -/
theorem step_next {s t : State} (h : step s = .next t) :
    (s.ir = none ∧ s.program = [] ∧ t = s) ∨
    (∃ e rest i, s.ir = none ∧ s.program = e :: rest ∧ decodeEntry e = .ok i ∧
      exec i (s.withProgram rest) = .next t) ∨
    (∃ w i, s.ir = some w ∧ decode w = .ok i ∧ exec i s = .next t) := by
  cases hi : s.ir with
  | some w =>
    cases hd : decode w with
    | error why => simp [step, fetch_busy hi, fetchedFrom, hd] at h
    | ok i => exact .inr (.inr ⟨w, i, rfl, hd, by simpa [step, fetch_busy hi, fetchedFrom, hd] using h⟩)
  | none =>
    cases hp : s.program with
    | nil => exact .inl ⟨rfl, rfl, by simpa [step, fetch_idle hi hp, eq_comm] using h⟩
    | cons e rest =>
      cases hd : decodeEntry e with
      | error why => simp [step, fetch_issue hi hp, fetchedFrom, hd] at h
      | ok i =>
        exact .inr (.inl ⟨e, rest, i, rfl, rfl, hd, by simpa [step, fetch_issue hi hp, fetchedFrom, hd] using h⟩)

end Sys2Proof.Machine
end

