-- ==== Sys2Proof/Laws/Timing.lean ====
section
/-! SUPPORT. Durations: what legal parameter values and legal timed events say, and minimum durations over
concatenation and of the composites. -/

namespace Sys2Proof

theorem Timing.legal_strobe {t : Timing} (h : t.legal = true) : 450 ≤ t.strobe := by
  have h' := (Bool.and_eq_true_iff.mp h).1
  exact of_decide_eq_true (List.all_eq_true.mp h' .strobe (by decide))

theorem Timing.legal_cycle {t : Timing} (h : t.legal = true) : 1000 ≤ 2 * t.strobe + t.settle :=
  of_decide_eq_true (Bool.and_eq_true_iff.mp h).2

namespace Machine

@[simp] theorem TimedEvent.legal_delay (t : Timing) (k : DelayClass) (d : Nat) :
    TimedEvent.legal t { event := .delay k, duration := d } = true ↔ t.of k ≤ d := decide_eq_true_iff

@[simp] theorem TimedEvent.legal_pin (t : Timing) (v : Out) (d : Nat) :
    TimedEvent.legal t { event := .pin v, duration := d } = true ↔ d = 0 := decide_eq_true_iff

@[simp] theorem startOf_zero (l : List TimedEvent) : startOf 0 l = 0 := rfl

@[simp] theorem startOf_succ_cons (n : Nat) (e : TimedEvent) (l : List TimedEvent) :
    startOf (n + 1) (e :: l) = e.duration + startOf n l := rfl

@[simp] theorem minDuration_nil (t : Timing) : minDuration t [] = 0 := rfl

theorem minDuration_append (t : Timing) (p q : List MicroOp) :
    minDuration t (p ++ q) = minDuration t p + minDuration t q := by
  simp [minDuration]

theorem minDuration_dly (t : Timing) (k : DelayClass) : minDuration t [.dly k] = t.of k := by
  simp [minDuration, MicroOp.minDuration]

theorem minDuration_frame (t : Timing) (rs : Bool) (n : Nibble) :
    minDuration t (frame rs n) = 2 * t.strobe + t.settle := by
  simp [minDuration, frame, strobe, MicroOp.minDuration, Timing.of]
  omega

theorem minDuration_byteFrames (t : Timing) (rs : Bool) (b : Byte) :
    minDuration t (byteFrames rs b) = 2 * (2 * t.strobe + t.settle) := by
  rw [byteFrames, minDuration_append, minDuration_frame, minDuration_frame]
  omega

end Machine

end Sys2Proof
end

