-- ==== Sys2Proof/Machine/Assembler.lean ====
section
/-! DEFINITION. The text form of a host program: one operation a line, mnemonic first, operands separated by
commas, numbers in decimal or 0x hexadecimal, ';' starting a comment (spec/30_encoding.md R94, R95). Text is a
list of characters. What R94 does not say of blanks and letter case is log entry 18. -/

namespace Sys2Proof.Machine

/-- Why a line is not one of R94 or R95. -/
inductive AsmError where
  /-- The mnemonic is none of R94 and R95. -/
  | unknownMnemonic
  /-- The operands do not have the mnemonic's form, or a value does not fit its field. -/
  | badOperands
  /-- The line has a form, and the spec gives its argument no expansion. -/
  | noExpansion (why : HostRefusal)
  deriving DecidableEq, Repr

/-- A blank between the parts of a line. -/
def isBlank (c : Char) : Bool := c == ' ' || c == '\t'

/-- Text without the blanks around it. -/
def trimBlanks (cs : List Char) : List Char := ((cs.dropWhile isBlank).reverse.dropWhile isBlank).reverse

/-- Text up to a comment (R94). -/
def uncomment (cs : List Char) : List Char := cs.takeWhile (· != ';')

/-- The value of a decimal digit. -/
def decDigit (c : Char) : Option Nat :=
  if '0' ≤ c ∧ c ≤ '9' then some (c.toNat - '0'.toNat) else none

/-- The value of a hexadecimal digit, of either case. -/
def hexDigit (c : Char) : Option Nat :=
  if 'a' ≤ c ∧ c ≤ 'f' then some (c.toNat - 'a'.toNat + 10)
  else if 'A' ≤ c ∧ c ≤ 'F' then some (c.toNat - 'A'.toNat + 10)
  else decDigit c

/-- Digits in a base, most significant first, after a value already read. -/
def readDigits (base : Nat) (digit : Char → Option Nat) (soFar : Nat) : List Char → Option Nat
  | [] => some soFar
  | c :: rest =>
    match digit c with
    | some d => readDigits base digit (soFar * base + d) rest
    | none => none

/-- A number in decimal or 0x hexadecimal (R94). -/
def readNat : List Char → Option Nat
  | [] => none
  | '0' :: 'x' :: c :: rest => readDigits 16 hexDigit 0 (c :: rest)
  | c :: rest => readDigits 10 decDigit 0 (c :: rest)

/-- A signed number, for `PRINTI` (R163): a number as R94 writes it, decimal or 0x hexadecimal, after an optional
minus sign and no plus sign (DESIGN CHOICE, log entry 18). -/
def readInt : List Char → Option Int
  | '-' :: rest => (readNat rest).map fun n => -(n : Int)
  | cs => (readNat cs).map fun n => (n : Int)

/-- A signed decimal number with or without a fraction, for `PRINTF` (R165). How it is written is the model's choice:
decimal digits only, at least one before the point, any number after it, so `5` and `5.` are read and `.5` and
`0x7` are not (DESIGN CHOICE, log entry 18). -/
def readDecimal (cs : List Char) : Option Decimal :=
  let unsigned := if cs.head? == some '-' then cs.drop 1 else cs
  let whole := unsigned.takeWhile (· != '.')
  let part := (unsigned.dropWhile (· != '.')).drop 1
  if whole.isEmpty then none
  else (readDigits 10 decDigit 0 (whole ++ part)).map fun n =>
    { coeff := if cs.head? == some '-' then -(n : Int) else (n : Int), scale := part.length }

/-- A number that fits a field of `n` bits. -/
def readField (n : Nat) (cs : List Char) : Option (BitVec n) :=
  match readNat cs with
  | some v => if v < 2 ^ n then some (BitVec.ofNat n v) else none
  | none => none

/-- The one-byte ASCII code of a character (R167). -/
def asciiCode (c : Char) : Option Byte := if c.toNat < 128 then some (BitVec.ofNat 8 c.toNat) else none

/-- A quoted text at the start, ended by the quote `q`, and what follows it. -/
def readQuoted (q : Char) : List Char → Option (List Byte × List Char)
  | [] => none
  | c :: rest =>
    if c == q then some ([], rest)
    else
      match asciiCode c, readQuoted q rest with
      | some b, some (bs, after) => some (b :: bs, after)
      | _, _ => none

/-- The texts between the commas. -/
def splitCommas (cs : List Char) : List (List Char) :=
  match cs with
  | [] => [[]]
  | c :: rest =>
    match splitCommas rest with
    | [] => [[c]]
    | first :: more => if c == ',' then [] :: first :: more else (c :: first) :: more

/-- The operands of a line: none, or those between its commas. -/
def operandsOf (cs : List Char) : List (List Char) :=
  if (trimBlanks (uncomment cs)).isEmpty then [] else (splitCommas (uncomment cs)).map trimBlanks

/-- The operand of `DATA`: a byte, or a quoted character (R94, R167). -/
def readDataByte (cs : List Char) : Option Byte :=
  match cs.dropWhile isBlank with
  | '\'' :: c :: '\'' :: after => if (operandsOf after).isEmpty then asciiCode c else none
  | _ =>
    match operandsOf cs with
    | [b] => readField 8 b
    | _ => none

/-- The operand of `PRINTS`: a quoted text, with the terminating 0x00 it stands for (R95, R162). -/
def readText (cs : List Char) : Option (List Byte) :=
  match cs.dropWhile isBlank with
  | '"' :: rest =>
    match readQuoted '"' rest with
    | some (bs, after) => if (operandsOf after).isEmpty then some (bs ++ [0x00#8]) else none
    | none => none
  | _ => none

/-- A line from its mnemonic and the rest of its text (R94, R95); `INIT` alone is `INIT DC_DEFAULT`. -/
def readLine (k : Constants) (mnemonic rest : List Char) : Except AsmError HostLine :=
  let ofOption : Option HostLine → Except AsmError HostLine
    | some l => .ok l
    | none => .error .badOperands
  if mnemonic = ['I', 'N', 'I', 'T'] then
    match operandsOf rest with
    | [] => .ok (.op (.init k.dcDefault))
    | [dc] => ofOption ((readField 8 dc).map fun b => .op (.init b))
    | _ => .error .badOperands
  else if mnemonic = ['C', 'M', 'D'] then
    match operandsOf rest with
    | [b] => ofOption ((readField 8 b).map fun b => .op (.cmd b))
    | _ => .error .badOperands
  else if mnemonic = ['D', 'A', 'T', 'A'] then ofOption ((readDataByte rest).map fun b => .op (.data b))
  else if mnemonic = ['S', 'E', 'T', 'P', 'O', 'S'] then
    match operandsOf rest with
    | [row, col] =>
      match readField 1 row, readField 4 col with
      | some r, some c => .ok (.op (.setpos r c))
      | _, _ => .error .badOperands
    | _ => .error .badOperands
  else if mnemonic = ['S', 'H', 'L'] then
    match operandsOf rest with
    | [n] => ofOption ((readField 8 n).map fun n => .op (.shl n))
    | _ => .error .badOperands
  else if mnemonic = ['S', 'H', 'R'] then
    match operandsOf rest with
    | [n] => ofOption ((readField 8 n).map fun n => .op (.shr n))
    | _ => .error .badOperands
  else if mnemonic = ['C', 'L', 'E', 'A', 'R'] then
    if (operandsOf rest).isEmpty then .ok .clear else .error .badOperands
  else if mnemonic = ['H', 'O', 'M', 'E'] then
    if (operandsOf rest).isEmpty then .ok .home else .error .badOperands
  else if mnemonic = ['P', 'R', 'I', 'N', 'T', 'S'] then ofOption ((readText rest).map .prints)
  else if mnemonic = ['P', 'R', 'I', 'N', 'T', 'I'] then
    match operandsOf rest with
    | [v] => ofOption ((readInt v).map .printi)
    | _ => .error .badOperands
  else if mnemonic = ['P', 'R', 'I', 'N', 'T', 'F'] then
    match operandsOf rest with
    | [x] => ofOption ((readDecimal x).map .printf)
    | _ => .error .badOperands
  else .error .unknownMnemonic

/-- A character of the mnemonic, which ends at a blank or at a comment. -/
def isMnemonicChar (c : Char) : Bool := !isBlank c && c != ';'

/-- The lines a text line denotes: none for a blank line or a comment alone, else one. -/
def parseLine (k : Constants) (text : List Char) : Except AsmError (List HostLine) :=
  let body := text.dropWhile isBlank
  if (body.takeWhile isMnemonicChar).isEmpty then .ok []
  else
    match readLine k (body.takeWhile isMnemonicChar) (body.dropWhile isMnemonicChar) with
    | .ok l => .ok [l]
    | .error e => .error e

/-- The host program a text denotes, line by line (R94; 10_state.md R35). One line that is refused refuses the whole
text (DESIGN CHOICE, log entry 16). -/
def assemble (k : Constants) : List (List Char) → Except AsmError (List HostEntry)
  | [] => .ok []
  | text :: more =>
    match parseLine k text, assemble k more with
    | .ok ls, .ok es =>
      match expandProgram ls with
      | .ok es' => .ok (es' ++ es)
      | .error why => .error (.noExpansion why)
    | .error e, _ => .error e
    | _, .error e => .error e

end Sys2Proof.Machine
end

