-- ==== Sys2Proof/Tests/Slice0.lean ====
section
/-! SUPPORT. The model's own tests, with expected results from spec/95_test_vectors.md and the rules' worked
examples, and for every obligation with hypotheses a concrete state that meets them together. -/

namespace Sys2Proof.Tests

open Sys2Proof.Machine

/-- The state an outcome leads to, if it does. -/
def nextOf (o : Host.Outcome State Fault Refusal) : Option State :=
  match o with
  | .next t => some t
  | .fault _ => none
  | .refused _ => none

/-- Why an outcome is refused, if it is. -/
def refusalOf (o : Host.Outcome State Fault Refusal) : Option Refusal :=
  match o with
  | .next _ => none
  | .fault _ => none
  | .refused r => some r

/-- IR, UPC, the 6-bit OUT and the last event of the state an outcome leads to. -/
def view (o : Host.Outcome State Fault Refusal) : Option (Option Word × Nat × BitVec 6 × Option Event) :=
  (nextOf o).map fun t => (t.ir, t.upc.toNat, t.out.toBits, t.trace.getLast?)

/-- The state of a block with the default constants, idle, with OUT at a 6-bit value. -/
def idleAt (out : BitVec 6) : State := State.fresh defaultConstants (Out.ofBits out)

/-- The same with an operation word in IR and UPC at a value. -/
def busyAt (out : BitVec 6) (w : Word) (upc : Nat) : State :=
  { idleAt out with ir := some w, upc := BitVec.ofNat 13 upc }

/-- A pin event from its 6-bit value. -/
def pin (v : BitVec 6) : Event := .pin (Out.ofBits v)

/-! ## Well-formedness: the one check, at both ends of its range -/

theorem test_wf_init_below : (Instr.init 0x0B#8).wf = false := by decide
theorem test_wf_init_above : (Instr.init 0x10#8).wf = false := by decide
theorem test_wf_init_range :
    (Instr.init 0x0C#8).wf = true ∧ (Instr.init 0x0F#8).wf = true ∧ (Instr.init 0x0E#8).wf = true := by decide

/-! ## Decoding: words from spec/95_test_vectors.md 2.7 and bytes from 2.8 and 30_encoding.md R90, bit by bit -/

theorem test_decode_init : decode 0b0000_00001110#12 = .ok (.init 0x0E#8) := by decide
theorem test_decode_cmd : decode 0b0001_00101000#12 = .ok (.cmd 0x28#8) := by decide
theorem test_decode_data : decode 0b0010_01000001#12 = .ok (.data 0x41#8) := by decide
theorem test_decode_setpos : decode 0b0011_00010101#12 = .ok (.setpos 1#1 5#4) := by decide
theorem test_decode_shl : decode 0b0100_11111111#12 = .ok (.shl 255#8) := by decide
theorem test_decode_shr : decode 0b0101_00000010#12 = .ok (.shr 2#8) := by decide
theorem test_decode_clear : decodeCommand 0b00000001#8 = .ok .clear := by decide
theorem test_decode_home : decodeCommand 0b00000010#8 = .ok .home := by decide
theorem test_decode_entryMode : decodeCommand 0b00000110#8 = .ok (.entryMode 0b10#2) := by decide
theorem test_decode_displayCtrl : decodeCommand 0b00001110#8 = .ok (.displayCtrl 0b110#3) := by decide
theorem test_decode_cursorShift :
    decodeCommand 0b00011000#8 = .ok (.cursorShift 0b10#2) ∧ decodeCommand 0b00011100#8 = .ok (.cursorShift 0b11#2) :=
  by decide
theorem test_decode_functionSet : decodeCommand 0b00101000#8 = .ok (.functionSet 1#1) := by decide
theorem test_decode_setDdram : decodeCommand 0b11000101#8 = .ok (.setDdram 0x45#7) := by decide

/-- The refused words of spec/95_test_vectors.md 2.7. -/
theorem test_decode_reserved :
    ([0x000#12, 0x008#12, 0x00B#12, 0x010#12, 0x0FF#12, 0x320#12, 0x345#12, 0x3FF#12, 0x600#12, 0x7AB#12, 0xF00#12,
      0xFFF#12].all fun w => (decode w).toOption.isNone) = true := by decide

/-- Bytes in no class (30_encoding.md R92, narrow reading). -/
theorem test_decodeCommand_no_class :
    ([0x00#8, 0x03#8, 0x11#8, 0x1D#8, 0x1F#8, 0x21#8, 0x29#8, 0x41#8, 0x7F#8].all fun b =>
      (decodeCommand b).toOption.isNone) = true := by decide

/-- Words of the opcode table, by their number of bits. -/
theorem test_decodeTableWord :
    decodeTableWord 12 0x315 = some (.setpos 1#1 5#4) ∧ decodeTableWord 16 0x315 = some (.setpos 1#1 5#4) ∧
    decodeTableWord 8 0xC5 = some (.setDdram 0x45#7) ∧ decodeTableWord 16 0x1315 = none ∧
    decodeTableWord 8 0x315 = none ∧ decodeTableWord 12 0x600 = none := by decide

/-! ## One step of each instruction -/

/-- V31: from the draw 0x3A, RSTLINES leaves 0x0A (R113). -/
theorem test_init_rstlines :
    view (step (busyAt 0x3A#6 0x00E#12 0)) = some (some 0x00E#12, 1, 0x0A#6, some (pin 0x0A#6)) := by
  decide +kernel
/-- R141: UPC 113 is the delay EMODE. -/
theorem test_init_emode :
    view (step (busyAt 0x00#6 0x00E#12 113)) = some (some 0x00E#12, 114, 0x00#6, some (.delay .emode)) := by
  decide +kernel
/-- V12: the third pin value of `CMD 0x28` is 0x22. -/
theorem test_cmd_enable :
    view (step (busyAt 0x02#6 0x128#12 3)) = some (some 0x128#12, 4, 0x22#6, some (pin 0x22#6)) := by decide
/-- V12: after SEQ step 16 IR is none and UPC is 0. -/
theorem test_cmd_last : view (step (busyAt 0x08#6 0x128#12 15)) = some (none, 0, 0x00#6, some (pin 0x00#6)) := by
  decide
/-- V13: `DATA 0x41` presents its low nibble with RS at 1. -/
theorem test_data_low_nibble :
    view (step (busyAt 0x00#6 0x241#12 8)) = some (some 0x241#12, 9, 0x11#6, some (pin 0x11#6)) := by decide
/-- V43: `SETPOS 1, 5` presents 0xC first. -/
theorem test_setpos_high_nibble :
    view (step (busyAt 0x00#6 0x315#12 0)) = some (some 0x315#12, 1, 0x0C#6, some (pin 0x0C#6)) := by decide
/-- V47: `SHL 0` changes nothing, even a reset draw. -/
theorem test_shl_zero : nextOf (exec (.shl 0#8) (idleAt 0x3A#6)) = some (idleAt 0x3A#6) := by decide
/-- V49: `SHL 3` delays after its first byte, at UPC 16, and goes on. -/
theorem test_shl_delay :
    view (step (busyAt 0x00#6 0x403#12 16)) = some (some 0x403#12, 17, 0x00#6, some (.delay .shift)) := by
  decide +kernel
/-- V4A: the low nibble of `SHR`'s byte is 0xC. -/
theorem test_shr_low_nibble :
    view (step (busyAt 0x00#6 0x502#12 25)) = some (some 0x502#12, 26, 0x0C#6, some (pin 0x0C#6)) := by decide +kernel
/-- V4A: the last delay ends the operation. -/
theorem test_shr_last : view (step (busyAt 0x00#6 0x502#12 33)) = some (none, 0, 0x00#6, some (.delay .shift)) := by
  decide +kernel
/-- The command bytes are accepted as the words of V17, V18, V12, V14 and of R90. -/
theorem test_clear_accepted : view (exec .clear (idleAt 0x3A#6)) = some (some 0x101#12, 0, 0x3A#6, none) := by decide
theorem test_home_accepted : view (exec .home (idleAt 0x00#6)) = some (some 0x102#12, 0, 0x00#6, none) := by decide
theorem test_entryMode_accepted :
    view (exec (.entryMode 0b10#2) (idleAt 0x00#6)) = some (some 0x106#12, 0, 0x00#6, none) := by decide
theorem test_displayCtrl_accepted :
    view (exec (.displayCtrl 0b110#3) (idleAt 0x00#6)) = some (some 0x10E#12, 0, 0x00#6, none) := by decide
theorem test_cursorShift_accepted :
    view (exec (.cursorShift 0b11#2) (idleAt 0x00#6)) = some (some 0x11C#12, 0, 0x00#6, none) := by decide
theorem test_functionSet_accepted :
    view (exec (.functionSet 1#1) (idleAt 0x00#6)) = some (some 0x128#12, 0, 0x00#6, none) := by decide
theorem test_setDdram_accepted :
    view (exec (.setDdram 0x45#7) (idleAt 0x00#6)) = some (some 0x1C5#12, 0, 0x00#6, none) := by decide
/-- The first pin value of `CMD 0xC5` (V14), through SET_DDRAM. -/
theorem test_setDdram_high_nibble :
    view (exec (.setDdram 0x45#7) (busyAt 0x00#6 0x1C5#12 0)) = some (some 0x1C5#12, 1, 0x0C#6, some (pin 0x0C#6)) :=
  by decide

/-! ## Traces: micro-programs of spec/95_test_vectors.md -/

/-- V12, full event trace. -/
theorem test_cmd_trace :
    eventsOf Out.idle (uprog defaultConstants (.cmd 0x28#8)) =
      [pin 0x02#6, pin 0x02#6, .delay .strobe, pin 0x22#6, .delay .strobe, pin 0x02#6, .delay .settle, pin 0x00#6,
       pin 0x08#6, pin 0x08#6, .delay .strobe, pin 0x28#6, .delay .strobe, pin 0x08#6, .delay .settle, pin 0x00#6] :=
  by decide
/-- V20: from the draw 0x3A an extra frame comes first, and the waveform starts at the draw. -/
theorem test_cmd_from_draw :
    latchedFrames (eventsOf (Out.ofBits 0x3A#6) (uprog defaultConstants (.cmd 0x28#8))) =
      [(false, 0x2#4), (false, 0x2#4), (false, 0x8#4)] ∧
    waveform (Out.ofBits 0x3A#6) (eventsOf (Out.ofBits 0x3A#6) (uprog defaultConstants (.cmd 0x28#8))) =
      [0x3A#6, 0x22#6, 0x02#6, 0x22#6, 0x02#6, 0x00#6, 0x08#6, 0x28#6, 0x08#6, 0x00#6].map Out.ofBits := by decide
/-- V31 and section 2.4: the fifteen frames, and the extra one when the draw is put before the trace. -/
theorem test_init_frames :
    latchedFrames (eventsOf (Out.ofBits 0x3A#6) (uprog defaultConstants (.init 0x0E#8))) =
      [0x2#4, 0x2#4, 0x2#4, 0x0#4, 0x2#4, 0x0#4, 0x1#4, 0x2#4, 0x8#4, 0x0#4, 0xE#4, 0x0#4, 0x6#4, 0x8#4, 0x0#4].map
        (fun n => (false, n)) ∧
    (latchedFramesFromDraw (Out.ofBits 0x3A#6)
      (eventsOf (Out.ofBits 0x3A#6) (uprog defaultConstants (.init 0x0E#8)))).head? = some (true, 0xA#4) := by
  decide +kernel
/-- V31: the waveform of INIT from the draw 0x3A, 52 values. -/
theorem test_init_waveform :
    waveform (Out.ofBits 0x3A#6) (eventsOf (Out.ofBits 0x3A#6) (uprog defaultConstants (.init 0x0E#8))) =
      ([0x3A#6, 0x0A#6, 0x02#6, 0x22#6, 0x02#6, 0x00#6, 0x02#6, 0x22#6, 0x02#6, 0x00#6, 0x02#6, 0x22#6, 0x02#6] ++
       [0x00#6, 0x20#6, 0x00#6, 0x02#6, 0x22#6, 0x02#6, 0x00#6, 0x20#6, 0x00#6, 0x01#6, 0x21#6, 0x01#6, 0x00#6] ++
       [0x02#6, 0x22#6, 0x02#6, 0x00#6, 0x08#6, 0x28#6, 0x08#6, 0x00#6, 0x20#6, 0x00#6, 0x0E#6, 0x2E#6, 0x0E#6] ++
       [0x00#6, 0x20#6, 0x00#6, 0x06#6, 0x26#6, 0x06#6, 0x00#6, 0x08#6, 0x28#6, 0x08#6, 0x00#6, 0x20#6, 0x00#6]).map
        Out.ofBits := by decide +kernel
/-- V44 and 20_memory.md R58: `SETPOS 1, 15` sends 0xCF; its DDRAM address is 0x4F. -/
theorem test_addrCmd : addrCmd 1#1 15#4 = 0xCF#8 ∧ addrCmd 0#1 0#4 = 0x80#8 ∧ ddramAddr 1#1 15#4 = 0x4F#7 := by decide
/-- V4C: `SHL 255` has 4335 micro-operations. -/
theorem test_shl_length : (uprog defaultConstants (.shl 255#8)).length = 4335 := by decide +kernel

/-! ## The run: idle, refused, busy -/

/-- R211: reset with nothing presented stays as it is. -/
theorem test_reset_idle : step State.reset = .next State.reset := rfl
/-- P6: the word 0x600 is refused at its issue. -/
theorem test_reserved_refused :
    refusalOf (step ((idleAt 0x00#6).withFetchWord 12 0x600)) = some (.reservedWord .reservedOpc) := by decide
/-- R221: an operation presented while another is in IR has no meaning. -/
theorem test_presented_while_busy :
    refusalOf (exec (.cmd 0x28#8) (busyAt 0x00#6 0x241#12 3)) = some .presentedWhileBusy := by decide
/-- R24, R34: BUSY rises at acceptance; the host then presents nothing. -/
theorem test_busy_rises :
    busy (busyAt 0x00#6 0x128#12 0) = true ∧ busy (idleAt 0x00#6) = false ∧
    opValid ((idleAt 0x00#6).withProgram [.opWord 0x128#12]) = true ∧
    opWord ((idleAt 0x00#6).withProgram [.cmdByte 0x01#8]) = some 0x101#12 ∧
    runOver (idleAt 0x00#6) = true := by decide
/-- The table's word runs as the first instruction after reset. -/
theorem test_first_after_reset :
    (nextOf (step (State.reset.withFetchWord 12 0x00E))).map (fun t => (t.ir, t.upc)) = some (some 0x00E#12, 0#13) ∧
    (nextOf (step (State.reset.withFetchWord 8 0x01))).map (fun t => (t.ir, t.upc)) = some (some 0x101#12, 0#13) := by
  decide

/-! ## Configuration: vectors V60 to V6E, ports of eight pins -/

/-- The code validation reports for a pin map, 0 for a valid one. -/
def validationCode (dataPort dataOff ePort eBit rsPort rsBit : Nat) : Nat :=
  match validate defaultPortWidth { dataPort, dataOff, ePort, eBit, rsPort, rsBit } with
  | .ok _ => 0
  | .error e => e.code

theorem test_validate_valid :
    validationCode 1 4 1 0 1 1 = 0 ∧ validationCode 1 0 1 4 1 5 = 0 ∧ validationCode 1 4 2 5 2 6 = 0 ∧
    validationCode 1 2 1 1 1 6 = 0 ∧ validationCode 1 4 1 3 2 0 = 0 := by decide
theorem test_validate_range :
    validationCode 1 5 1 0 1 1 = 1 ∧ validationCode 1 0 1 8 1 5 = 1 ∧ validationCode 1 0 2 0 2 9 = 1 ∧
    validationCode 1 6 1 7 1 7 = 1 := by decide
theorem test_validate_overlap :
    validationCode 1 0 1 3 1 5 = 2 ∧ validationCode 1 4 1 0 1 4 = 2 ∧ validationCode 1 2 1 5 1 5 = 2 ∧
    validationCode 1 4 1 7 2 0 = 2 := by decide
theorem test_validate_same_pin : validationCode 1 0 2 3 2 3 = 3 ∧ validationCode 1 0 1 6 1 6 = 3 := by decide
/-- Pin mapping of V60 with OUT = 0x3A. -/
theorem test_pin_levels :
    ((List.range 8).map fun b => pinLevel pinMapV60 (Out.ofBits 0x3A#6) 1 b) =
      [some true, some true, none, none, some false, some true, some false, some true] := by decide

/-! ## Timing: vectors V50 to V54 -/

/-- Every class at its minimum, with given STROBE, SETTLE and SHIFT. -/
def timingOf (strobe settle shift : Nat) : Timing :=
  { pwron := 15000000, hs1 := 4100000, hs2 := 100000, hs3 := 100000, home := 2000000, clear := 2000000,
    fset := 100000, dctl := 100000, emode := 100000, strobe, settle, shift }

theorem test_timing_legal : (timingOf 450 100 0).legal = true ∧ (timingOf 450 50 0).legal = false := by decide
theorem test_timing_durations :
    minDuration (timingOf 450 100 0) (uprog defaultConstants (.cmd 0x28#8)) = 2000 ∧
    minDuration (timingOf 450 100 0) (uprog defaultConstants (.init 0x0E#8)) = 23615000 ∧
    minDuration (timingOf 1000 40000 0) (uprog defaultConstants (.shl 3#8)) = 252000 := by decide +kernel

/-! ## Host pseudo-operations: vectors V70 to V86 -/

/-- The operation words of an expansion. -/
def wordsOf (e : Except HostRefusal (List Instr)) : Option (List Word) := e.toOption.map fun is => is.map wordOf

theorem test_clear_home :
    wordsOf (expandLine .clear) = some [0x101#12] ∧ wordsOf (expandLine .home) = some [0x102#12] := by decide
theorem test_prints :
    wordsOf (expandPrints [0x00#8]) = some [] ∧
    wordsOf (expandPrints [0x41#8, 0x42#8, 0x00#8]) = some [0x241#12, 0x242#12] := by decide
theorem test_printi :
    wordsOf (expandPrinti 0) = some [0x230#12, 0x230#12, 0x230#12, 0x230#12] ∧
    wordsOf (expandPrinti (-7)) = some [0x22D#12, 0x230#12, 0x230#12, 0x230#12, 0x237#12] ∧
    wordsOf (expandPrinti (-120)) = some [0x22D#12, 0x230#12, 0x231#12, 0x232#12, 0x230#12] ∧
    wordsOf (expandPrinti 1234) = some [0x231#12, 0x232#12, 0x233#12, 0x234#12] ∧
    expandPrinti 10000 = .error .integerOutOfRange ∧ expandPrinti (-10000) = .error .integerOutOfRange := by decide
theorem test_printf :
    wordsOf (expandPrintf { coeff := 5, scale := 1 }) =
      some [0x230#12, 0x230#12, 0x230#12, 0x230#12, 0x22E#12, 0x235#12, 0x230#12, 0x230#12, 0x230#12] ∧
    wordsOf (expandPrintf { coeff := -92370989, scale := 4 }) =
      some [0x22D#12, 0x239#12, 0x232#12, 0x233#12, 0x237#12, 0x22E#12, 0x230#12, 0x239#12, 0x238#12, 0x239#12] ∧
    wordsOf (expandPrintf { coeff := 314159, scale := 5 }) =
      some [0x230#12, 0x230#12, 0x230#12, 0x233#12, 0x22E#12, 0x231#12, 0x234#12, 0x231#12, 0x235#12] := by decide
theorem test_printf_refused :
    expandPrintf { coeff := -5, scale := 1 } = .error .negativeFraction ∧
    expandPrintf { coeff := 100000, scale := 1 } = .error .integerOutOfRange := by decide

/-- The program P2 as text (spec/95_test_vectors.md section 3). -/
theorem test_assemble_P2 :
    (assemble defaultConstants
      ["INIT 0x0E          ; 0x00E".toList, "SETPOS 1, 5        ; 0x315".toList, "PRINTS \"AB\"".toList]).toOption =
      some [.opWord 0x00E#12, .opWord 0x315#12, .opWord 0x241#12, .opWord 0x242#12] := by decide +kernel
/-- The other forms of R94 and R95; a mnemonic it does not list is no line of a program. -/
theorem test_assemble_forms :
    (assemble defaultConstants
      ["INIT".toList, "DATA 'A'".toList, "SHL 3".toList, "CMD 40".toList, "CLEAR".toList, "PRINTI -7".toList]).toOption =
      some [.opWord 0x00E#12, .opWord 0x241#12, .opWord 0x403#12, .opWord 0x128#12, .opWord 0x101#12,
            .opWord 0x22D#12, .opWord 0x230#12, .opWord 0x230#12, .opWord 0x230#12, .opWord 0x237#12] ∧
    (assemble defaultConstants ["WAIT 3".toList]).toOption = none := by decide +kernel

/-! ## Witnesses: for every obligation with hypotheses, values that meet them together -/

/-- Idle after an operation: OUT at the idle pattern, a trace, and a next entry to present. -/
def afterOp : State := { idleAt 0x00#6 with trace := [pin 0x08#6, pin 0x00#6], program := [.opWord 0x241#12] }

/-- `CMD 0x28` in progress from the draw 0x3A, with nothing recorded before it, UPC at `n`. -/
def inCmd (n : Nat) : State :=
  { busyAt 0x00#6 0x128#12 n with
    out := outAfter (Out.ofBits 0x3A#6) ((uprogCmd 0x28#8).take n)
    trace := eventsOf (Out.ofBits 0x3A#6) ((uprogCmd 0x28#8).take n) }

/-- A micro-operation at UPC of the program of the word in IR. -/
def microAt (s : State) (w : Word) (i : Instr) (m : MicroOp) : Prop :=
  s.ir = some w ∧ decode w = .ok i ∧ (uprog s.constants i)[s.upc.toNat]? = some m

theorem runInv_inCmd_4 : RunInv (inCmd 4) :=
  ⟨.cmd 0x28#8, Out.ofBits 0x3A#6, [], by decide, by decide, by decide, by decide, .inr rfl⟩
theorem runInv_inCmd_15 : RunInv (inCmd 15) :=
  ⟨.cmd 0x28#8, Out.ofBits 0x3A#6, [], by decide, by decide, by decide, by decide, .inr rfl⟩
theorem runInv_afterOp : RunInv afterOp := ⟨rfl, .inl rfl⟩

theorem witness_DecodeAfterEncodeIsIdentity :
    (Instr.init 0x0C#8).wf = true ∧ (Instr.init 0x0F#8).wf = true ∧ (Instr.setDdram 0x7F#7).wf = true := by decide
theorem witness_DecodedEntriesEncodeBack :
    decodeEntry (.opWord 0x31F#12) = .ok (.setpos 1#1 15#4) ∧ decodeEntry (.cmdByte 0x80#8) = .ok (.setDdram 0#7) := by
  decide
theorem witness_ReservedWordsAreRefused :
    decode 0x320#12 = .error .reservedSetposOperand ∧ decode 0x00B#12 = .error .reservedInitOperand ∧
    decode 0x600#12 = .error .reservedOpc ∧
    ({ afterOp with program := [.opWord 0x320#12] } : State).ir = none := by decide
theorem witness_CommandBytesArePresentedAsCmd :
    isCommandClass .clear = true ∧ isCommandClass (.setDdram 0x7F#7) = true := by decide
theorem witness_StepRunsTheDecodedInstruction :
    (afterOp.ir = none ∧ afterOp.program = .opWord 0x241#12 :: [] ∧ decodeEntry (.opWord 0x241#12) = .ok (.data 0x41#8)) ∧
    ((inCmd 4).ir = some 0x128#12 ∧ decode 0x128#12 = .ok (.cmd 0x28#8)) ∧
    ((idleAt 0x3A#6).ir = none ∧ (idleAt 0x3A#6).program = []) := by decide
theorem witness_PlacedTableWordRunsNext :
    decodeTableWord 12 0x5FF = some (.shr 0xFF#8) ∧ decodeTableWord 16 0x00C = some (.init 0x0C#8) ∧
    decodeTableWord 8 0xFF = some (.setDdram 0x7F#7) := by decide
theorem witness_IssueLoadsTheOperationWord :
    ({ afterOp with program := [.opWord 0x600#12] } : State).ir = none ∧ decode 0x600#12 = .error .reservedOpc ∧
    decode 0x400#12 = .ok (.shl 0#8) ∧ uprog defaultConstants (.shl 0#8) = [] ∧
    decode 0x500#12 = .ok (.shr 0#8) ∧ uprog defaultConstants (.shr 0#8) = [] ∧
    decode 0x401#12 = .ok (.shl 1#8) ∧ uprog defaultConstants (.shl 1#8) ≠ [] ∧
    (inCmd 4).ir ≠ none ∧ (nextOf (step (inCmd 4))).isSome = true := by decide
theorem witness_BusyIsSetAtAcceptanceAndClearedAtTheEnd :
    (∃ t, step (idleAt 0x3A#6) = .next t) ∧ busy (idleAt 0x3A#6) = false ∧ (idleAt 0x3A#6).program = [] ∧
    (∃ t, step afterOp = .next t) ∧ busy afterOp = false ∧ afterOp.program = .opWord 0x241#12 :: [] ∧
    decode 0x241#12 = .ok (.data 0x41#8) ∧
    (∃ t, step (inCmd 15) = .next t) ∧ (inCmd 15).ir = some 0x128#12 ∧ decode 0x128#12 = .ok (.cmd 0x28#8) ∧
    (inCmd 15).upc.toNat + 1 = (uprog defaultConstants (.cmd 0x28#8)).length ∧
    (∃ t, step (inCmd 4) = .next t) ∧ (inCmd 4).upc.toNat + 1 ≠ (uprog defaultConstants (.cmd 0x28#8)).length :=
  ⟨⟨_, rfl⟩, by decide, by decide, ⟨_, rfl⟩, by decide, by decide, by decide, ⟨_, rfl⟩, by decide, by decide, by decide,
   ⟨_, rfl⟩, by decide⟩
theorem witness_SeqStepPerformsTheMicroOpAtUpc :
    microAt (inCmd 4) 0x128#12 (.cmd 0x28#8) (.dly .strobe) ∧
    (inCmd 4).upc.toNat + 1 ≠ (uprog defaultConstants (.cmd 0x28#8)).length ∧
    microAt (inCmd 15) 0x128#12 (.cmd 0x28#8) .retract ∧
    (inCmd 15).upc.toNat + 1 = (uprog defaultConstants (.cmd 0x28#8)).length := by unfold microAt; decide
theorem witness_MicroOpsWriteExactlyTheirFields :
    microAt (inCmd 0) 0x128#12 (.cmd 0x28#8) (.apply false 0x2#4) ∧ microAt (inCmd 3) 0x128#12 (.cmd 0x28#8) (.en true) ∧
    microAt (inCmd 7) 0x128#12 (.cmd 0x28#8) .retract ∧ microAt (inCmd 6) 0x128#12 (.cmd 0x28#8) (.dly .settle) ∧
    microAt (busyAt 0x3A#6 0x00E#12 0) 0x00E#12 (.init 0x0E#8) .rstlines := by unfold microAt; decide +kernel
theorem witness_TraceHasOneEventPerMicroOp :
    (∃ t, step afterOp = .next t) ∧ afterOp.ir = none ∧
    (∃ t, step (inCmd 4) = .next t) ∧ (inCmd 4).ir = some 0x128#12 ∧ decode 0x128#12 = .ok (.cmd 0x28#8) :=
  ⟨⟨_, rfl⟩, by decide, ⟨_, rfl⟩, by decide, by decide⟩
theorem witness_MicroStepCounterNeverWraps :
    (RunInv (inCmd 4) ∧ (inCmd 4).ir ≠ none ∧ ∃ t, step (inCmd 4) = .next t) ∧
    (RunInv (inCmd 15) ∧ (inCmd 15).ir ≠ none ∧ ∃ t, step (inCmd 15) = .next t) :=
  ⟨⟨runInv_inCmd_4, by decide, ⟨_, rfl⟩⟩, ⟨runInv_inCmd_15, by decide, ⟨_, rfl⟩⟩⟩
theorem witness_SetposSendsTheAddressCommand :
    (0x320#12).extractLsb' 8 4 = 0x3#4 ∧ (0x320#12).extractLsb' 5 3 ≠ 0b000#3 ∧
    (0x3FF#12).extractLsb' 8 4 = 0x3#4 ∧ (0x3FF#12).extractLsb' 5 3 ≠ 0b000#3 := by decide
/-- The three clauses of `RunsAs` for the operations: idle with an empty list, idle with another, busy at the last
micro-operation. -/
theorem witness_RunsAs_operations :
    (idleAt 0x3A#6).ir = none ∧ (listedShifts 0x18#8 0).isEmpty = true ∧ (listedShifts 0x18#8 255).isEmpty = false ∧
    (busyAt 0x08#6 0x1FF#12 15).ir = some (0x100#12 ||| (0xFF#8).setWidth 12) ∧
    (listedByte false 0xFF#8)[15]? = some .retract ∧ (listedByte true 0xFF#8)[15]? = some .retract ∧
    (busyAt 0x00#6 0x31F#12 0).ir = some (0x300#12 ||| ((1#1).setWidth 12 <<< 4) ||| (15#4).setWidth 12) ∧
    (listedByte false 0xCF#8)[0]? = some (.apply false 0xC#4) ∧
    (listedShifts 0x18#8 255)[4334]? = some (.dly .shift) ∧
    (busyAt 0x00#6 0x4FF#12 4334).upc.toNat = 4334 := by decide +kernel
theorem witness_InitRunsTheNineSteps :
    0x0C ≤ (0x0C#8).toNat ∧ (0x0C#8).toNat ≤ 0x0F ∧ 0x0C ≤ (0x0F#8).toNat ∧ (0x0F#8).toNat ≤ 0x0F ∧
    (listedInit defaultConstants 0x0F#8)[129]? = some .retract ∧ (busyAt 0x00#6 0x00F#12 129).upc.toNat = 129 ∧
    (busyAt 0x00#6 0x00F#12 129).ir = some ((0x0F#8).setWidth 12) := by decide +kernel
theorem witness_InitRefusesReservedOperands :
    ¬ (0x0C ≤ (0x0B#8).toNat ∧ (0x0B#8).toNat ≤ 0x0F) ∧ ¬ (0x0C ≤ (0x10#8).toNat ∧ (0x10#8).toNat ≤ 0x0F) := by decide
theorem witness_CommandBytesAreSentAsTheirByte :
    (idleAt 0x3A#6).ir = none ∧ (listedByte false 0x01#8).isEmpty = false ∧
    (busyAt 0x00#6 0x101#12 15).ir = some 0x101#12 ∧ (listedByte false 0x01#8)[15]? = some .retract ∧
    (busyAt 0x00#6 0x1FF#12 0).ir = some (0x180#12 ||| (0x7F#7).setWidth 12) ∧
    (busyAt 0x00#6 0x11C#12 0).ir = some (0x110#12 ||| ((3#2).setWidth 12 <<< 2)) ∧
    (busyAt 0x00#6 0x128#12 0).ir = some (0x120#12 ||| ((1#1).setWidth 12 <<< 3)) := by decide
theorem witness_OperationPresentedWhileBusyIsRefused :
    (Instr.init 0x0C#8).wf = true ∧ (inCmd 4).ir = some 0x128#12 ∧ (0x128#12 ≠ wordOf (.init 0x0C#8)) := by decide
theorem witness_OperationRunsToCompletion :
    (Instr.shr 255#8).wf = true ∧ (idleAt 0x3A#6).ir = none ∧ (uprog defaultConstants (.shr 255#8)).isEmpty = false ∧
    decode 0x241#12 = .ok (.data 0x41#8) ∧ afterOp.program = .opWord 0x241#12 :: [] ∧ afterOp.ir = none := by
  decide +kernel
theorem witness_HostProgramRunsInOrder :
    (∀ i ∈ [Instr.init 0x0E#8, .shl 0#8, .clear, .data 0xFF#8], i.wf = true) ∧ (idleAt 0x3A#6).ir = none ∧
    (idleAt 0x3A#6).upc = 0#13 ∧
    ((idleAt 0x3A#6).withProgram [.opWord 0x00E#12, .opWord 0x400#12, .cmdByte 0x01#8, .opWord 0x2FF#12]).program =
      [Instr.init 0x0E#8, .shl 0#8, .clear, .data 0xFF#8].map encode := by decide
theorem witness_OperationInProgressFinishes : RunInv (inCmd 4) ∧ (inCmd 4).ir ≠ none :=
  ⟨runInv_inCmd_4, by decide⟩
theorem witness_ByteOperationsLatchHighThenLow :
    (idleAt 0x1F#6).ir = none ∧ (idleAt 0x1F#6).out.e = false ∧ (idleAt 0x3A#6).ir = none ∧ (idleAt 0x3A#6).out.e = true := by
  decide
theorem witness_InitLatchesFifteenFrames :
    0x0C ≤ (0x0D#8).toNat ∧ (0x0D#8).toNat ≤ 0x0F ∧ (idleAt 0x3A#6).ir = none ∧
    (idleAt 0x3A#6).constants = defaultConstants := by decide
theorem witness_InitForgetsTheStateOfThePins :
    (Instr.init 0x0E#8).wf = true ∧ (idleAt 0x3A#6).ir = none ∧ afterOp.ir = none ∧
    (idleAt 0x3A#6).constants = afterOp.constants ∧ (idleAt 0x3A#6).out ≠ afterOp.out := by decide
theorem witness_ConvenienceOperationsAreEquivalent :
    (255#8).toNat + (0#8).toNat ≤ 255 ∧ (128#8).toNat + (127#8).toNat ≤ 255 ∧ (Out.ofBits 0x1F#6).e = false := by decide
theorem witness_IdlePatternAfterEveryOperation :
    (Instr.data 0xFF#8).wf = true ∧ (idleAt 0x3A#6).ir = none ∧ uprog defaultConstants (.data 0xFF#8) ≠ [] ∧
    RunInv afterOp ∧ afterOp.ir = none := ⟨by decide, by decide, by decide, runInv_afterOp, by decide⟩
/-- `CMD 0x28` from the idle pattern after another operation, about to present its low nibble. -/
def presenting : State := { busyAt 0x00#6 0x128#12 8 with trace := eventsOf Out.idle ((uprogCmd 0x28#8).take 8) }
theorem witness_PinsAreStableDuringAPulse :
    RunInv presenting ∧ enableWasLow presenting = true ∧
    ∃ t, step presenting = .next t ∧ (t.out.rs ≠ presenting.out.rs ∨ t.out.d ≠ presenting.out.d) :=
  ⟨⟨.cmd 0x28#8, Out.idle, [], by decide, by decide, by decide, by decide, .inl rfl⟩, by decide, _, rfl, by decide⟩
theorem witness_EveryStepKeepsTheInvariant :
    (RunInv afterOp ∧ ∃ t, step afterOp = .next t) ∧ (RunInv (inCmd 15) ∧ ∃ t, step (inCmd 15) = .next t) :=
  ⟨⟨runInv_afterOp, _, rfl⟩, ⟨runInv_inCmd_15, _, rfl⟩⟩
theorem witness_NoStepRaisesAnException :
    RunInv { afterOp with program := [.cmdByte 0x00#8] } ∧
    step { afterOp with program := [.cmdByte 0x00#8] } = .refused (.reservedWord .noCommandClass) :=
  ⟨⟨rfl, .inl rfl⟩, rfl⟩
/-- A block with pin map V60 and a given state. -/
def blockV60 (s : State) : Block := { cfg := pinMapV60, state := s }
/-- R33, R26: reset leaves CFG as it is, and takes the operation in progress away. -/
theorem test_reset_keeps_cfg :
    ((blockV60 (inCmd 4)).reset (Out.ofBits 0x15#6)).cfg = pinMapV60 ∧
    ((blockV60 (inCmd 4)).reset (Out.ofBits 0x15#6)).state = idleAt 0x15#6 := by decide
theorem witness_InvariantHoldsAfterReset :
    ∃ b, construct 8 pinMapV60.raw defaultConstants (Out.ofBits 0x3A#6) = .ok b := ⟨_, rfl⟩
theorem witness_ConfigurationNeverChanges :
    (∃ c, (blockV60 afterOp).steps 3 = .next c) ∧
    ∃ t, step afterOp = .next t ∧ afterOp.ir = none ∧ afterOp.program = .opWord 0x241#12 :: t.program :=
  ⟨⟨_, rfl⟩, _, rfl, by decide, by decide⟩
theorem witness_SequencingIgnoresThePinMap :
    (∃ c, (blockV60 (inCmd 4)).steps 2 = .next c) ∧
    (blockV60 (busyAt 0x00#6 0x128#12 16)).steps 1 = .fault .upcOutOfRange ∧
    (blockV60 (afterOp.withFetchWord 12 0x600)).steps 1 = .refused (.reservedWord .reservedOpc) :=
  ⟨⟨_, rfl⟩, rfl, rfl⟩
theorem witness_BusyStepIgnoresTheHost : (inCmd 4).ir ≠ none ∧ ∃ t, step (inCmd 4) = .next t := ⟨by decide, _, rfl⟩
theorem witness_SequencingIgnoresOut : ∃ t, step (inCmd 4) = .next t := ⟨_, rfl⟩
/-- A second block, on port 2. -/
def secondBlock : Block :=
  { state := idleAt 0x00#6
    cfg := { raw := { dataPort := 2, dataOff := 0, ePort := 2, eBit := 4, rsPort := 2, rsBit := 5 },
             portWidth := 8, isValid := by decide } }
theorem witness_InstancesShareNoState :
    (∃ after, stepInstance 1 [secondBlock, blockV60 afterOp] = .next after) ∧
    ([secondBlock, blockV60 afterOp])[1]? = some (blockV60 afterOp) ∧ (0 ≠ 1) ∧
    (∃ after, stepInstance 2 [secondBlock, blockV60 afterOp] = .next after) ∧
    stepInstance 0 [blockV60 afterOp, blockV60 afterOp] = .refused .overlappingInstances :=
  ⟨⟨_, rfl⟩, by decide, by decide, ⟨_, rfl⟩, rfl⟩
/-- The clauses of `ValidationReportsTheFirstFailure` at the boundaries of V6D, V6E and V64. -/
theorem witness_ValidationReportsTheFirstFailure :
    (¬ ((5 + 3 : Int) ≤ 8 - 1)) ∧ (((4 + 3 : Int) ≤ 8 - 1) ∧ ¬ (7 < 4 ∨ 4 + 3 < 7)) ∧
    (((0 + 3 : Int) ≤ 8 - 1) ∧ (6 < 0 ∨ 0 + 3 < 6) ∧ ¬ ¬ (1 = 1 ∧ 6 = 6)) ∧
    (((4 + 3 : Int) ≤ 8 - 1) ∧ (3 < 4 ∨ 4 + 3 < 3) ∧ ¬ (1 = 2 ∧ 3 = 0)) := by decide
theorem witness_MachineExistsOnlyForAValidPinMap :
    RawConfig.valid 8 pinMapV60.raw = true ∧ RawConfig.valid 7 pinMapV60.raw = false ∧
    (∃ t, (machine pinMapV60 defaultConstants (Out.ofBits 0x3A#6)).run 2 (blockV60 (inCmd 4)) = .next t) ∧
    (blockV60 (inCmd 4)).state.ir = some 0x128#12 ∧ decode 0x128#12 = .ok (.cmd 0x28#8) :=
  ⟨by decide, by decide, ⟨_, rfl⟩, by decide, by decide⟩
theorem witness_OperationDurations :
    (Out.ofBits 0x1F#6).e = false ∧
    ∀ c : DelayClass, c ≠ .strobe → c ≠ .settle → c ≠ .shift → (timingOf 450 100 0).of c = c.minimum := by
  refine ⟨by decide, fun c => ?_⟩
  cases c <;> decide
/-- The events of `CMD 0x28` from the idle pattern, each delay at its minimum for V50's parameters. -/
def timedByte : List TimedEvent :=
  (eventsOf Out.idle (byteFrames false 0x28#8)).map fun e =>
    { event := e, duration := match e with | .pin _ => 0 | .delay k => (timingOf 450 100 0).of k }
theorem witness_TimeInsideAByte :
    (timingOf 450 100 0).legal = true ∧ Out.idle.e = false ∧
    timedByte.map (·.event) = eventsOf Out.idle (byteFrames false 0x28#8) ∧
    (timedByte.all fun x => x.legal (timingOf 450 100 0)) = true ∧
    timedByte[0 + 6]? = some { event := .delay .settle, duration := 100 } ∧
    timedByte[8 + 5]? = some { event := pin 0x08#6, duration := 0 } := by decide
/-- V50: with the minima of T_STROBE 450 ns and T_SETTLE 100 ns the rising edges of a byte are 1000 ns apart, each
pulse lasts 450 ns, and the second frame is presented 1000 ns and retracted 2000 ns after the start. -/
theorem test_byte_edges :
    enableEdges false 0 timedByte = [(true, 450), (false, 900), (true, 1450), (false, 1900)] ∧
    startOf 8 timedByte = 1000 ∧ startOf 15 timedByte = 2000 := by decide
theorem witness_PrintsSendsEachCharacterOnce : 0x00#8 ∉ [0x41#8, 0x42#8] ∧ 0x00#8 ∉ ([] : List Byte) := by decide
theorem witness_PrintiSendsSignAndFourDigits :
    (-9999 ≤ (-9999 : Int) ∧ (-9999 : Int) ≤ 9999) ∧ (-9999 ≤ (9999 : Int) ∧ (9999 : Int) ≤ 9999) ∧
    ¬ (-9999 ≤ (10000 : Int) ∧ (10000 : Int) ≤ 9999) ∧ ¬ (-9999 ≤ (-10000 : Int) ∧ (-10000 : Int) ≤ 9999) := by decide
theorem witness_PrintfTruncatesToFourDigits :
    ((-5 : Int).natAbs = 0 * 10 ^ 1 + 5 ∧ 5 < 10 ^ 1) ∧ ((100000 : Int).natAbs = 10000 * 10 ^ 1 + 0 ∧ 9999 < 10000) ∧
    ((99999999 : Int).natAbs = 9999 * 10 ^ 4 + 9999 ∧ 9999 < 10 ^ 4 ∧ 9999 ≤ 9999) ∧
    ((-15 : Int).natAbs = 1 * 10 ^ 1 + 5 ∧ ¬ ((-15 : Int) < 0 ∧ 1 = 0)) := by decide

end Sys2Proof.Tests
end

section
/-! PROOF. The decoder read backwards: what a word or a byte that decodes says of its instruction, and which operation
the word presented for a well-formed instruction decodes to (spec/30_encoding.md R81, R90, R97). -/

namespace Sys2Proof

/-- A field that a mask keeps whole reads the same in the word and in its masked value. -/
theorem extractLsb'_of_and_eq {n : Nat} {w mask v : BitVec n} (start len : Nat) (h : w &&& mask = v)
    (hm : mask.extractLsb' start len = BitVec.allOnes len) : w.extractLsb' start len = v.extractLsb' start len := by
  rw [← h, BitVec.extractLsb'_and, hm, BitVec.and_allOnes]

/-- A word whose upper field a mask fixes to `top` is `top` before its lower field. -/
theorem top_append_low {n m : Nat} {w mask v : BitVec (n + m)} (top : BitVec n) (h : w &&& mask = v)
    (hm : mask.extractLsb' m n = BitVec.allOnes n) (hv : v.extractLsb' m n = top) :
    top ++ w.extractLsb' 0 m = w := by
  rw [← hv, ← extractLsb'_of_and_eq m n h hm, BitVec.extractLsb'_append_extractLsb']

/-- The operand byte of a SETPOS word is three zeros, the row and the column (30_encoding.md R85). -/
theorem setpos_operand_of_mask {w : Word} (h : w &&& 0xFE0#12 = 0x300#12) :
    0#3 ++ (w.extractLsb' 4 1 ++ w.extractLsb' 0 4) = w.extractLsb' 0 8 := by
  have hzero : w.extractLsb' 5 3 = 0#3 := extractLsb'_of_and_eq 5 3 h rfl
  rw [← hzero, BitVec.extractLsb'_append_extractLsb'_eq_extractLsb' (start₂ := 4) rfl]
  exact BitVec.extractLsb'_append_extractLsb'_eq_extractLsb' (start₂ := 5) rfl

/-- The operand byte of an INIT word is a display-control byte with the display on (30_encoding.md R83). -/
theorem init_wf_of_mask {w : Word} (h : w &&& 0xFFC#12 = 0x00C#12) : (Instr.init (w.extractLsb' 0 8)).wf = true := by
  have hdc : w.extractLsb' 2 6 = 0b000011#6 := extractLsb'_of_and_eq 2 6 h rfl
  rw [Instr.wf, BitVec.extractLsb'_extractLsb'_of_le (by decide), hdc]
  rfl

/-- A word decodes only to a well-formed instruction of format OPW12, and is its operation word (R97). -/
theorem decode_ok {w : Word} {i : Instr} (h : decode w = .ok i) :
    i.wf = true ∧ isCommandClass i = false ∧ wordOf i = w := by
  unfold decode at h
  split at h
  case isTrue hm => cases h; exact ⟨init_wf_of_mask hm, rfl, top_append_low (n := 4) (m := 8) 0x0#4 hm rfl rfl⟩
  split at h
  case isTrue hm => cases h; exact ⟨rfl, rfl, top_append_low (n := 4) (m := 8) 0x1#4 hm rfl rfl⟩
  split at h
  case isTrue hm => cases h; exact ⟨rfl, rfl, top_append_low (n := 4) (m := 8) 0x2#4 hm rfl rfl⟩
  split at h
  case isTrue hm =>
    cases h
    refine ⟨rfl, rfl, ?_⟩
    rw [wordOf, operandByte, setpos_operand_of_mask hm]
    exact top_append_low (n := 4) (m := 8) 0x3#4 hm rfl rfl
  split at h
  case isTrue hm => cases h; exact ⟨rfl, rfl, top_append_low (n := 4) (m := 8) 0x4#4 hm rfl rfl⟩
  split at h
  case isTrue hm => cases h; exact ⟨rfl, rfl, top_append_low (n := 4) (m := 8) 0x5#4 hm rfl rfl⟩
  split at h
  · cases h
  split at h <;> cases h

/-- A command byte decodes only to a well-formed instruction of format LCDCMD8, and is its operand byte (R90). -/
theorem decodeCommand_ok {b : Byte} {i : Instr} (h : decodeCommand b = .ok i) :
    i.wf = true ∧ isCommandClass i = true ∧ operandByte i = b := by
  unfold decodeCommand at h
  split at h
  case isTrue hb => cases h; exact ⟨rfl, rfl, hb.symm⟩
  split at h
  case isTrue hb => cases h; exact ⟨rfl, rfl, hb.symm⟩
  split at h
  case isTrue hm => cases h; exact ⟨rfl, rfl, top_append_low (n := 6) (m := 2) 0b000001#6 hm rfl rfl⟩
  split at h
  case isTrue hm => cases h; exact ⟨rfl, rfl, top_append_low (n := 5) (m := 3) 0b00001#5 hm rfl rfl⟩
  split at h
  case isTrue hm =>
    cases h
    have hlow : b.extractLsb' 0 2 = 0b00#2 := extractLsb'_of_and_eq 0 2 hm rfl
    refine ⟨rfl, rfl, ?_⟩
    rw [operandByte, ← hlow, BitVec.extractLsb'_append_extractLsb'_eq_extractLsb' (len₁ := 2) rfl]
    exact top_append_low (n := 4) (m := 4) 0b0001#4 hm rfl rfl
  split at h
  case isTrue hm =>
    cases h
    have hlow : b.extractLsb' 0 3 = 0b000#3 := extractLsb'_of_and_eq 0 3 hm rfl
    refine ⟨rfl, rfl, ?_⟩
    rw [operandByte, ← hlow, BitVec.extractLsb'_append_extractLsb'_eq_extractLsb' (len₁ := 3) rfl]
    exact top_append_low (n := 4) (m := 4) 0b0010#4 hm rfl rfl
  split at h
  case isTrue hm => cases h; exact ⟨rfl, rfl, top_append_low (n := 1) (m := 7) 1#1 hm rfl rfl⟩
  cases h

/-- A host entry decodes only to a well-formed instruction that is written as this entry. -/
theorem decodeEntry_ok {e : HostEntry} {i : Instr} (h : decodeEntry e = .ok i) : i.wf = true ∧ encode i = e := by
  cases e with
  | opWord w =>
    obtain ⟨hwf, hclass, hw⟩ := decode_ok h
    exact ⟨hwf, by simp [encode, hclass, hw]⟩
  | cmdByte b =>
    obtain ⟨hwf, hclass, hb⟩ := decodeCommand_ok h
    exact ⟨hwf, by simp [encode, hclass, hb]⟩

/-- The operation an instruction is presented as: itself, or `CMD` with its byte for a command class (R84, R95). -/
def Instr.presentedAs (i : Instr) : Instr := if isCommandClass i then .cmd (operandByte i) else i

/-- The word presented for a well-formed instruction decodes to the operation it is presented as. -/
theorem decode_wordOf {i : Instr} (h : i.wf = true) : decode (wordOf i) = .ok i.presentedAs := by
  have hcmd : ∀ b, decode (wordOf (.cmd b)) = .ok (.cmd b) := by decide
  cases i with
  | init dc => revert dc; decide
  | cmd b => exact hcmd b
  | data b => revert b; decide
  | setpos row col => revert row col; decide
  | shl times => revert times; decide
  | shr times => revert times; decide
  | clear => exact hcmd _
  | home => exact hcmd _
  | entryMode options => exact hcmd _
  | displayCtrl options => exact hcmd _
  | cursorShift options => exact hcmd _
  | functionSet options => exact hcmd _
  | setDdram address => exact hcmd _

namespace Machine

/-- A command class has the micro-program of `CMD` with its byte (R84, R119). -/
@[simp] theorem uprog_presentedAs (k : Constants) (i : Instr) : uprog k i.presentedAs = uprog k i := by
  cases i <;> rfl

end Machine

end Sys2Proof
end

section
/-! PROOF. Micro-programs: the three shapes they come in, their lengths, the OUT they end in, and what their first
micro-operations leave
(spec/10_state.md R23; spec/40_bus_primitives.md R115, R124). -/

namespace Sys2Proof.Machine

/-- Every micro-program is that of INIT, a byte, or a byte and its delay some times over. -/
theorem uprog_cases (k : Constants) (i : Instr) :
    (∃ dc, uprog k i = uprogInit k dc) ∨ (∃ rs b, uprog k i = byteFrames rs b) ∨
    (∃ b times, (i = .shl times ∨ i = .shr times) ∧ uprog k i = repeatShift b times) := by
  cases i with
  | init dc => exact .inl ⟨dc, rfl⟩
  | shl times => exact .inr (.inr ⟨k.shLeft, times, .inl rfl, rfl⟩)
  | shr times => exact .inr (.inr ⟨k.shRight, times, .inr rfl, rfl⟩)
  | _ => exact .inr (.inl ⟨_, _, rfl⟩)

/-- No micro-program is longer than that of 255 shifts (10_state.md R23). -/
theorem uprog_length_le (k : Constants) (i : Instr) : (uprog k i).length ≤ 4335 := by
  obtain ⟨dc, h⟩ | ⟨rs, b, h⟩ | ⟨b, times, -, h⟩ := uprog_cases k i
  · simp [h]
  · simp [h]
  · have htimes : times.toNat < 256 := times.isLt
    rw [h, repeatShift_length]
    omega

/-- Only no shift at all has an empty micro-program (10_state.md R28). -/
theorem uprog_eq_nil_iff (k : Constants) (i : Instr) : uprog k i = [] ↔ i = .shl 0#8 ∨ i = .shr 0#8 := by
  constructor
  · intro hnil
    have hlen : (uprog k i).length = 0 := by rw [hnil]; rfl
    obtain ⟨dc, h⟩ | ⟨rs, b, h⟩ | ⟨b, times, hi, h⟩ := uprog_cases k i
    · simp [h] at hlen
    · simp [h] at hlen
    · have htimes : times = 0#8 := BitVec.eq_of_toNat_eq (by simpa [h] using hlen)
      rwa [htimes] at hi
  · rintro (rfl | rfl) <;> rfl

@[simp] theorem outAfter_thenDelay (o : Out) (p : List MicroOp) (k : DelayClass) :
    outAfter o (thenDelay p k) = outAfter o p := by
  simp [thenDelay, outAfter_append, MicroOp.write]

/-- Every micro-program but the empty one ends in the idle pattern, whatever OUT was (40_bus_primitives.md R124). -/
theorem outAfter_uprog {k : Constants} {i : Instr} (hne : uprog k i ≠ []) (o : Out) :
    outAfter o (uprog k i) = Out.idle := by
  obtain ⟨dc, h⟩ | ⟨rs, b, h⟩ | ⟨b, times, -, h⟩ := uprog_cases k i
  · simp [h, uprogInit, initSteps, outAfter_append]
  · simp [h]
  · rw [h, repeatShift] at hne ⊢
    cases htimes : times.toNat with
    | zero => simp [htimes] at hne
    | succ n => simp [List.replicate_succ', outAfter_append]

/-- One micro-operation more writes OUT once more. -/
theorem outAfter_take_succ {p : List MicroOp} {n : Nat} {m : MicroOp} (h : p[n]? = some m) (o : Out) :
    outAfter o (p.take (n + 1)) = m.write (outAfter o (p.take n)) := by
  simp [List.take_add_one, h, outAfter_append]

/-- One micro-operation more records one more event. -/
theorem eventsOf_take_succ {p : List MicroOp} {n : Nat} {m : MicroOp} (h : p[n]? = some m) (o : Out) :
    eventsOf o (p.take (n + 1)) =
      eventsOf o (p.take n) ++ [m.event (m.write (outAfter o (p.take n)))] := by
  simp [List.take_add_one, h, eventsOf_append]

/-- A `DLY(k)` records its delay and leaves OUT alone; any other micro-operation records OUT (10_state.md R27). -/
theorem MicroOp.event_cases (m : MicroOp) (o : Out) :
    (∃ k, m = .dly k ∧ m.event (m.write o) = .delay k ∧ m.write o = o) ∨
    ((∀ k, m ≠ .dly k) ∧ m.event (m.write o) = .pin (m.write o)) := by
  cases m with
  | dly k => exact .inl ⟨k, rfl, rfl, rfl⟩
  | _ => exact .inr ⟨nofun, rfl⟩

end Sys2Proof.Machine
end

section
/-! PROOF. The step, case by case: what the HOST step and the SEQ step answer, as equations, and everything a step
that answers can have done (spec/10_state.md R28, R29). -/

namespace Sys2Proof.Machine

/-- An acceptance changes IR, UPC and nothing else; IR only for a micro-program that is not empty (R28). -/
@[simp] theorem accept_out (w : Word) (p : List MicroOp) (s : State) : (accept w p s).out = s.out := by
  cases p <;> rfl
@[simp] theorem accept_trace (w : Word) (p : List MicroOp) (s : State) : (accept w p s).trace = s.trace := by
  cases p <;> rfl
@[simp] theorem accept_program (w : Word) (p : List MicroOp) (s : State) : (accept w p s).program = s.program := by
  cases p <;> rfl
@[simp] theorem accept_constants (w : Word) (p : List MicroOp) (s : State) :
    (accept w p s).constants = s.constants := by
  cases p <;> rfl

/-- An instruction some entry decodes to runs as `operate` on the word presented for that entry. -/
theorem exec_of_decodeEntry {e : HostEntry} {i : Instr} (h : decodeEntry e = .ok i) (s : State) :
    exec i s = operate (wordOf i) (uprog s.constants i) s :=
  exec_eq_operate_of_wf (decodeEntry_ok h).1 s

theorem step_idle {s : State} (h : s.ir = none) (hp : s.program = []) : step s = .next s := by
  rw [step, fetch_idle h hp]

theorem step_issue_exec {s : State} {e : HostEntry} {rest : List HostEntry} {i : Instr} (h : s.ir = none)
    (hp : s.program = e :: rest) (hd : decodeEntry e = .ok i) : step s = exec i (s.withProgram rest) := by
  rw [step, fetch_issue h hp, hd]
  rfl

theorem step_issue_refused {s : State} {e : HostEntry} {rest : List HostEntry} {why : Reject} (h : s.ir = none)
    (hp : s.program = e :: rest) (hd : decodeEntry e = .error why) : step s = .refused (.reservedWord why) := by
  rw [step, fetch_issue h hp, hd]
  rfl

theorem step_busy_exec {s : State} {w : Word} {i : Instr} (h : s.ir = some w) (hd : decode w = .ok i) :
    step s = exec i s := by
  rw [step, fetch_busy h, hd]
  rfl

/-- The HOST step accepts the operation presented for the next entry (R28). -/
theorem step_issue {s : State} {e : HostEntry} {rest : List HostEntry} {i : Instr} (h : s.ir = none)
    (hp : s.program = e :: rest) (hd : decodeEntry e = .ok i) :
    step s = .next (accept (wordOf i) (uprog s.constants i) (s.withProgram rest)) := by
  rw [step_issue_exec h hp hd, exec_of_decodeEntry hd]
  exact operate_idle h

/-- The SEQ step advances through the micro-program of the word in IR (R29). -/
theorem step_busy {s : State} {w : Word} {i : Instr} (h : s.ir = some w) (hd : decode w = .ok i) :
    step s = advance (uprog s.constants i) s := by
  have hw : wordOf i = w := (decode_ok hd).2.2
  rw [step_busy_exec h hd, exec_of_decodeEntry (e := .opWord w) hd, hw, operate_own h]

/-- The state after the micro-operation at UPC of a program of `len` micro-operations (R29). -/
def afterMicro (len : Nat) (m : MicroOp) (s : State) : State :=
  if s.upc.toNat + 1 = len then (perform m s).retire else (perform m s).nextMicro

section
variable (len : Nat) (m : MicroOp) (s : State)

@[simp] theorem afterMicro_out : (afterMicro len m s).out = m.write s.out := by unfold afterMicro; split <;> rfl
@[simp] theorem afterMicro_trace : (afterMicro len m s).trace = s.trace ++ [m.event (m.write s.out)] := by
  unfold afterMicro; split <;> rfl
@[simp] theorem afterMicro_program : (afterMicro len m s).program = s.program := by unfold afterMicro; split <;> rfl
@[simp] theorem afterMicro_constants : (afterMicro len m s).constants = s.constants := by
  unfold afterMicro; split <;> rfl
@[simp] theorem afterMicro_ir : (afterMicro len m s).ir = if s.upc.toNat + 1 = len then none else s.ir := by
  unfold afterMicro; split <;> rfl
@[simp] theorem afterMicro_upc :
    (afterMicro len m s).upc = if s.upc.toNat + 1 = len then 0#13 else s.upc + 1#13 := by
  unfold afterMicro; split <;> rfl

end

theorem step_micro {s : State} {w : Word} {i : Instr} {m : MicroOp} (h : s.ir = some w) (hd : decode w = .ok i)
    (hm : (uprog s.constants i)[s.upc.toNat]? = some m) :
    step s = .next (afterMicro (uprog s.constants i).length m s) := by
  rw [step_busy h hd, advance_eq hm, afterMicro]

/-- A SEQ step that answers has performed the micro-operation at UPC. -/
theorem step_busy_next {s t : State} {w : Word} {i : Instr} (h : s.ir = some w) (hd : decode w = .ok i)
    (hstep : step s = .next t) : ∃ m, (uprog s.constants i)[s.upc.toNat]? = some m ∧
      t = afterMicro (uprog s.constants i).length m s := by
  rw [step_busy h hd] at hstep
  obtain ⟨m, hm, -⟩ := advance_next hstep
  rw [advance_eq hm] at hstep
  exact ⟨m, hm, (Host.Outcome.next.inj hstep).symm⟩

/-- What a step that answers has done: nothing, an acceptance, or one micro-operation. -/
inductive StepCase (s t : State) : Prop where
  | idle (hir : s.ir = none) (hprogram : s.program = []) (ht : t = s)
  | issue (e : HostEntry) (rest : List HostEntry) (i : Instr) (hir : s.ir = none) (hprogram : s.program = e :: rest)
      (hdecode : decodeEntry e = .ok i) (ht : t = accept (wordOf i) (uprog s.constants i) (s.withProgram rest))
  | micro (w : Word) (i : Instr) (m : MicroOp) (hir : s.ir = some w) (hdecode : decode w = .ok i)
      (hmicro : (uprog s.constants i)[s.upc.toNat]? = some m)
      (ht : t = afterMicro (uprog s.constants i).length m s)

theorem step_cases {s t : State} (h : step s = .next t) : StepCase s t := by
  obtain ⟨hir, hp, ht⟩ | ⟨e, rest, i, hir, hp, hd, -⟩ | ⟨w, i, hir, hd, -⟩ := step_next h
  · exact .idle hir hp ht
  · rw [step_issue hir hp hd] at h
    cases h
    exact .issue e rest i hir hp hd rfl
  · obtain ⟨m, hm, ht⟩ := step_busy_next hir hd h
    exact .micro w i m hir hd hm ht

end Sys2Proof.Machine
end

section
/-! PROOF. The invariant of the sequencer: it holds after reset, and every step keeps it (spec/10_state.md R23, R26,
R29, R36; spec/40_bus_primitives.md R124). -/

namespace Sys2Proof.Machine

theorem runInv_iff_idleInv {s : State} (h : s.ir = none) : RunInv s ↔ IdleInv s := by rw [RunInv, h]

theorem runInv_iff_busyInv {s : State} {w : Word} (h : s.ir = some w) : RunInv s ↔ BusyInv s w := by rw [RunInv, h]

/-- With UPC inside a micro-program its successor does not wrap (R23). -/
theorem upc_succ_toNat {k : Constants} {i : Instr} {u : BitVec 13} (h : u.toNat < (uprog k i).length) :
    (u + 1#13).toNat = u.toNat + 1 := by
  have hlen := uprog_length_le k i
  have hu : u.toNat + 1 < 2 ^ 13 := by omega
  exact BitVec.toNat_add_of_lt hu

/-- Accepting an operation in an idle state keeps the invariant: the operation starts from OUT and the trace as they
are (R28). -/
theorem runInv_accept {s : State} {i : Instr} (hwf : i.wf = true) (hir : s.ir = none) (hs : IdleInv s) :
    RunInv (accept (wordOf i) (uprog s.constants i) s) := by
  by_cases hnil : uprog s.constants i = []
  · rw [hnil, accept_nil]
    exact (runInv_iff_idleInv hir).2 hs
  · rw [accept_of_ne_nil hnil, runInv_iff_busyInv (State.load_ir s _)]
    have hlen : 0 < (uprog s.constants i.presentedAs).length := by
      rw [uprog_presentedAs]
      exact List.length_pos_of_ne_nil hnil
    exact ⟨i.presentedAs, s.out, s.trace, decode_wordOf hwf, hlen, rfl, (List.append_nil _).symm, hs.2⟩

/-- A micro-operation keeps the invariant: the part performed grows by it, and after the last one OUT is idle
(R29; R124). -/
theorem runInv_afterMicro {s : State} {w : Word} {i : Instr} {m : MicroOp} (hir : s.ir = some w)
    (hd : decode w = .ok i) (hm : (uprog s.constants i)[s.upc.toNat]? = some m) (hs : RunInv s) :
    RunInv (afterMicro (uprog s.constants i).length m s) := by
  obtain ⟨j, o, before, hj, hlt, hout, htrace, hstart⟩ := (runInv_iff_busyInv hir).1 hs
  obtain rfl : i = j := Except.ok.inj (hd.symm.trans hj)
  by_cases hlast : s.upc.toNat + 1 = (uprog s.constants i).length
  · have hne : uprog s.constants i ≠ [] := List.ne_nil_of_length_pos (by omega)
    have hidle : m.write s.out = Out.idle := by
      rw [hout, ← outAfter_take_succ hm, hlast, List.take_length, outAfter_uprog hne]
    rw [runInv_iff_idleInv (by simp [hlast])]
    exact ⟨by simp [hlast], .inl (by simp [hidle])⟩
  · rw [runInv_iff_busyInv (w := w) (by simp [hlast, hir])]
    have hupc : (s.upc + 1#13).toNat = s.upc.toNat + 1 := upc_succ_toNat hlt
    refine ⟨i, o, before, hd, ?_, ?_, ?_, hstart⟩
    · simp only [afterMicro_upc, afterMicro_constants, hlast, if_false, hupc]
      omega
    · simp only [afterMicro_out, afterMicro_upc, afterMicro_constants, hlast, if_false, hupc]
      rw [outAfter_take_succ hm, hout]
    · simp only [afterMicro_trace, afterMicro_upc, afterMicro_constants, hlast, if_false, hupc]
      rw [eventsOf_take_succ hm, ← hout, htrace, List.append_assoc]

/-- Settles O32: an idle step, an acceptance and a micro-operation each keep the invariant. -/
theorem everyStepKeepsTheInvariant : Obligations.EveryStepKeepsTheInvariant := by
  intro s t hs hstep
  cases step_cases hstep with
  | idle _ _ ht => rwa [ht]
  | issue e rest i hir hp hd ht =>
    rw [ht]
    exact runInv_accept (s := s.withProgram rest) (decodeEntry_ok hd).1 hir ((runInv_iff_idleInv hir).1 hs)
  | micro w i m hir hd hm ht =>
    rw [ht]
    exact runInv_afterMicro hir hd hm hs

theorem runInv_fresh (k : Constants) (draw : Out) : RunInv (State.fresh k draw) :=
  (runInv_iff_idleInv (State.fresh_ir k draw)).2 ⟨rfl, .inr rfl⟩

theorem runInv_resetTo (s : State) (draw : Out) : RunInv (s.resetTo draw) :=
  (runInv_iff_idleInv (State.resetTo_ir s draw)).2 ⟨rfl, .inr rfl⟩

/-- A block that construction yields is a fresh one, of a valid configuration (60_exceptions.md R183). -/
theorem construct_ok {portWidth : Nat} {r : RawConfig} {k : Constants} {draw : Out} {b : Block}
    (h : construct portWidth r k draw = .ok b) : ∃ c, validate portWidth r = .ok c ∧ b = Block.fresh c k draw := by
  unfold construct at h
  split at h
  case h_1 c hc => exact ⟨c, hc, (Except.ok.inj h).symm⟩
  case h_2 => cases h

/-- Settles O31: a state just reset or constructed is idle with UPC 0 and an empty trace. -/
theorem invariantHoldsAfterReset : Obligations.InvariantHoldsAfterReset := by
  refine ⟨runInv_fresh _ _, runInv_fresh, fun b draw => runInv_resetTo b.state draw, ?_⟩
  intro portWidth r k draw b hb
  obtain ⟨c, -, rfl⟩ := construct_ok hb
  exact runInv_fresh k draw

end Sys2Proof.Machine
end

section
/-! PROOF. The HOST step, the SEQ step, BUSY, the trace and the counter, read off the step's cases
(spec/10_state.md R23, R24, R27 to R29, R34, R35). -/

namespace Sys2Proof.Machine

theorem busy_eq_true_iff (s : State) : busy s = true ↔ s.ir ≠ none := Option.isSome_iff_ne_none

theorem busy_eq_false_iff (s : State) : busy s = false ↔ s.ir = none :=
  Option.isSome_eq_false_iff.trans Option.isNone_iff_eq_none

theorem busy_accept {w : Word} {p : List MicroOp} {s : State} (h : s.ir = none) :
    busy (accept w p s) = true ↔ p ≠ [] := by
  cases p <;> simp [busy_eq_true_iff, h]

/-- Settles O7: the cases of the step, before the meaning of the instruction. -/
theorem stepRunsTheDecodedInstruction : Obligations.StepRunsTheDecodedInstruction := by
  intro s
  exact ⟨fun e rest i hir hp hd => step_issue_exec hir hp hd, fun w i hir hd => step_busy_exec hir hd,
    fun hir hp => step_idle hir hp⟩

/-- Settles O9: the HOST step for a reserved word, an empty operation and any other, and the silent host. -/
theorem issueLoadsTheOperationWord : Obligations.IssueLoadsTheOperationWord := by
  intro s
  constructor
  · intro w rest hir hp
    refine ⟨fun why hd => step_issue_refused hir hp hd, fun i hd => ⟨uprog_eq_nil_iff _ i, ?_, ?_⟩⟩
    · intro hnil
      rw [step_issue hir hp hd, hnil]
      rfl
    · intro hne
      rw [step_issue hir hp hd, accept_of_ne_nil hne, (decode_ok hd).2.2]
      rfl
  · intro hbusy
    refine ⟨by simp [opValid, (busy_eq_true_iff s).2 hbusy], fun t hstep => ?_⟩
    cases step_cases hstep with
    | idle hir => exact absurd hir hbusy
    | issue _ _ _ hir => exact absurd hir hbusy
    | micro w i m hir hd hm ht => simp [ht]

/-- Settles O10: BUSY over each case of the step. -/
theorem busyIsSetAtAcceptanceAndClearedAtTheEnd : Obligations.BusyIsSetAtAcceptanceAndClearedAtTheEnd := by
  intro s t hstep
  refine ⟨busy_eq_true_iff s, ?_, ?_, ?_⟩
  · intro hidle hp
    rw [step_idle ((busy_eq_false_iff s).1 hidle) hp] at hstep
    cases hstep
    exact hidle
  · intro w rest i hidle hp hd
    have hir := (busy_eq_false_iff s).1 hidle
    rw [step_issue hir hp hd] at hstep
    cases hstep
    exact busy_accept (s := s.withProgram rest) hir
  · intro w i hir hd
    obtain ⟨m, -, rfl⟩ := step_busy_next hir hd hstep
    simp [busy_eq_false_iff, hir]

/-- Settles O11: the SEQ step is the micro-operation at UPC. -/
theorem seqStepPerformsTheMicroOpAtUpc : Obligations.SeqStepPerformsTheMicroOpAtUpc := by
  intro s w i m hir hd hm
  refine ⟨_, step_micro hir hd hm, ?_, ?_, ?_, ?_, ?_, ?_⟩
  · simp
  · simp
  · intro hlast
    simp [hlast]
  · intro hlast
    simp [hlast, hir]
  · simp
  · simp

/-- Settles O13: an idle step records nothing, and a micro-operation its one event. -/
theorem traceHasOneEventPerMicroOp : Obligations.TraceHasOneEventPerMicroOp := by
  intro s t hstep
  constructor
  · intro hidle
    cases step_cases hstep with
    | idle _ _ ht => simp [ht]
    | issue _ _ _ _ _ _ ht => simp [ht]
    | micro w _ _ hir => simp [hir] at hidle
  · intro w i hir hd
    obtain ⟨m, hm, ht⟩ := step_busy_next hir hd hstep
    refine ⟨m, m.event (m.write s.out), hm, by simp [ht], ?_⟩
    simpa [ht, and_assoc] using m.event_cases s.out

/-- Settles O14: the longest micro-program has 4335 micro-operations, and UPC stays inside its own. -/
theorem microStepCounterNeverWraps : Obligations.MicroStepCounterNeverWraps := by
  refine ⟨uprog_length_le, fun s t _ hbusy hstep => ?_⟩
  cases step_cases hstep with
  | idle hir => exact absurd hir hbusy
  | issue _ _ _ hir => exact absurd hir hbusy
  | micro w i m hir hd hm ht =>
    obtain ⟨hlt, -⟩ := List.getElem?_eq_some_iff.mp hm
    have hle := uprog_length_le s.constants i
    by_cases hlast : s.upc.toNat + 1 = (uprog s.constants i).length
    · exact .inl ⟨by simp [ht, hlast], by simp [ht, hlast]⟩
    · have hupc : t.upc.toNat = s.upc.toNat + 1 := by simp [ht, hlast, upc_succ_toNat hlt]
      exact .inr ⟨by simp [ht, hlast], hupc, by omega⟩

/-- The operation word of a table word's two bytes, low byte first (log entry 10). -/
theorem word_of_bytes (w : Nat) :
    (BitVec.ofNat 8 (w / 2 ^ 8)).extractLsb' 0 4 ++ BitVec.ofNat 8 w = BitVec.ofNat 12 w := by
  have hhigh : (BitVec.ofNat 8 (w / 2 ^ 8)).extractLsb' 0 4 = (BitVec.ofNat 12 w).extractLsb' 8 4 := by
    apply BitVec.eq_of_toNat_eq
    simp only [BitVec.extractLsb'_toNat, BitVec.toNat_ofNat, Nat.shiftRight_eq_div_pow]
    omega
  have hlow : BitVec.ofNat 8 w = (BitVec.ofNat 12 w).extractLsb' 0 8 := by
    apply BitVec.eq_of_toNat_eq
    simp only [BitVec.extractLsb'_toNat, BitVec.toNat_ofNat, Nat.shiftRight_eq_div_pow]
    omega
  rw [hhigh, hlow]
  exact BitVec.extractLsb'_append_extractLsb' (w := 4) (len := 8)

/-- The entry of a table word decodes as the table word does (10_state.md R34). -/
theorem decodeEntry_entryOfTableWord {nbits w : Nat} {i : Instr} (h : decodeTableWord nbits w = some i) :
    decodeEntry (entryOfTableWord nbits w) = .ok i := by
  have hok : decodeBytes (bytesOf nbits w) = .ok i := by
    unfold decodeTableWord at h
    cases hd : decodeBytes (bytesOf nbits w) with
    | error why => simp [hd, Except.toOption] at h
    | ok j => simpa [hd, Except.toOption] using h
  unfold bytesOf at hok
  split at hok
  case isTrue h8 =>
    rw [entryOfTableWord, if_pos h8.1]
    exact hok
  split at hok
  case isTrue hbits =>
    have hne : nbits ≠ 8 := by omega
    rw [decodeBytes] at hok
    split at hok
    · rw [entryOfTableWord, if_neg hne, decodeEntry, ← word_of_bytes]
      exact hok
    · cases hok
  case isFalse => cases hok

/-- Settles O8: the placed entry decodes as the table word, and the HOST step runs it. -/
theorem placedTableWordRunsNext : Obligations.PlacedTableWordRunsNext := by
  intro s nbits w i h
  exact step_issue_exec rfl rfl (decodeEntry_entryOfTableWord h)

end Sys2Proof.Machine
end

section
/-! PROOF. The configuration beside the state: it never changes, no step reads it, and its six pins carry the six
signals (spec/10_state.md R26, R31 to R33, R35). -/

namespace Sys2Proof.Machine

/-- An outcome for a block is that of its state, under the block's configuration (R33). -/
theorem Block.outcome_next_iff {b c : Block} {o : Host.Outcome State Fault Refusal} :
    b.outcome o = .next c ↔ c.cfg = b.cfg ∧ o = .next c.state := by
  obtain ⟨cfg, t⟩ := c
  cases o <;> simp [Block.outcome, Block.withState, eq_comm]

theorem Block.outcome_fault_iff {b : Block} {o : Host.Outcome State Fault Refusal} {f : Fault} :
    b.outcome o = .fault f ↔ o = .fault f := by
  cases o <;> simp [Block.outcome]

theorem Block.outcome_refused_iff {b : Block} {o : Host.Outcome State Fault Refusal} {r : Refusal} :
    b.outcome o = .refused r ↔ o = .refused r := by
  cases o <;> simp [Block.outcome]

/-- Settles O35: a block's steps and its reset keep its configuration, and no case of the step writes the constants or
takes more than the host's next entry. -/
theorem configurationNeverChanges : Obligations.ConfigurationNeverChanges := by
  refine ⟨fun n b c hsteps => ?_, Block.reset_cfg, fun s t hstep => ?_⟩
  · rw [Block.steps_eq, Block.outcome_next_iff] at hsteps
    exact hsteps.1
  · cases step_cases hstep with
    | idle _ _ ht => simp [ht]
    | issue e rest i hir hp hd ht => exact ⟨by simp [ht], .inr ⟨hir, e, by simp [ht, hp]⟩⟩
    | micro w i m hir hd hm ht => simp [ht]

/-- Settles O36: whatever the configuration, a block's steps are the steps of its state. -/
theorem sequencingIgnoresThePinMap : Obligations.SequencingIgnoresThePinMap := by
  intro n b c
  simp only [Block.steps_eq, Block.outcome_next_iff, Block.outcome_fault_iff, Block.outcome_refused_iff,
    true_and]
  exact ⟨fun t h => ⟨h.2, h.2⟩, fun f h => ⟨h, h⟩, fun r h => ⟨h, h⟩⟩

end Sys2Proof.Machine

namespace Sys2Proof

theorem RawConfig.isDataPin_iff (r : RawConfig) (port bit : Nat) :
    r.isDataPin port bit = true ↔ port = r.dataPort ∧ r.dataOff ≤ bit ∧ bit ≤ r.dataOff + 3 := by
  simp [RawConfig.isDataPin, and_assoc]

/-- V3 and V4 as a valid configuration meets them (10_state.md R31). -/
theorem Config.pins_apart (c : Config) :
    ¬ (c.raw.ePort = c.raw.dataPort ∧ c.raw.dataOff ≤ c.raw.eBit ∧ c.raw.eBit ≤ c.raw.dataOff + 3) ∧
    ¬ (c.raw.rsPort = c.raw.dataPort ∧ c.raw.dataOff ≤ c.raw.rsBit ∧ c.raw.rsBit ≤ c.raw.dataOff + 3) ∧
    ¬ (c.raw.ePort = c.raw.rsPort ∧ c.raw.eBit = c.raw.rsBit) := by
  have hvalid := c.isValid
  simp only [RawConfig.valid, Bool.and_eq_true] at hvalid
  obtain ⟨-, hV3, hV4⟩ := hvalid
  simp only [RawConfig.noOverlap, Bool.and_eq_true, Bool.not_eq_true', ← Bool.not_eq_true,
    RawConfig.isDataPin_iff] at hV3
  simp only [RawConfig.distinct, Bool.not_eq_true', ← Bool.not_eq_true, Bool.and_eq_true, decide_eq_true_eq] at hV4
  exact ⟨hV3.1, hV3.2, hV4⟩

/-- The pins a configuration binds are Enable, Register-Select and the data pins (R32). -/
theorem Config.mem_pins_iff (c : Config) (port bit : Nat) : (port, bit) ∈ c.pins ↔
    (port = c.raw.ePort ∧ bit = c.raw.eBit) ∨ (port = c.raw.rsPort ∧ bit = c.raw.rsBit) ∨
    c.raw.isDataPin port bit = true := by
  simp only [Config.pins, List.mem_cons, Prod.mk.injEq, List.not_mem_nil, or_false, RawConfig.isDataPin_iff]
  omega

theorem Config.pins_nodup (c : Config) : c.pins.Nodup := by
  obtain ⟨he, hrs, hne⟩ := c.pins_apart
  simp only [Config.pins, List.nodup_cons, List.mem_cons, Prod.mk.injEq, List.not_mem_nil, or_false, not_false_eq_true,
    List.nodup_nil, and_true]
  omega

end Sys2Proof

namespace Sys2Proof.Machine

theorem pinLevel_enable (c : Config) (o : Out) : pinLevel c o c.raw.ePort c.raw.eBit = some o.e := by
  simp [pinLevel]

theorem pinLevel_registerSelect (c : Config) (o : Out) : pinLevel c o c.raw.rsPort c.raw.rsBit = some o.rs := by
  obtain ⟨-, -, hne⟩ := c.pins_apart
  rw [pinLevel, if_neg (by omega), if_pos ⟨rfl, rfl⟩]

theorem pinLevel_data (c : Config) (o : Out) {i : Nat} (h : i < 4) :
    pinLevel c o c.raw.dataPort (c.raw.dataOff + i) = some (o.d.getLsbD i) := by
  obtain ⟨he, hrs, -⟩ := c.pins_apart
  have hdata : c.raw.isDataPin c.raw.dataPort (c.raw.dataOff + i) = true :=
    (c.raw.isDataPin_iff _ _).2 ⟨rfl, by omega, by omega⟩
  rw [pinLevel, if_neg (by omega), if_neg (by omega), if_pos hdata, Nat.add_sub_cancel_left]

theorem pinLevel_other (c : Config) (o : Out) {port bit : Nat} (h : (port, bit) ∉ c.pins) :
    pinLevel c o port bit = none := by
  simp only [c.mem_pins_iff, not_or] at h
  obtain ⟨hnotE, hnotRs, hnotData⟩ := h
  rw [pinLevel, if_neg hnotE, if_neg hnotRs, if_neg hnotData]

/-- Settles O42: V3 and V4 keep the six pins apart, so each one carries the signal bound to it. -/
theorem sixPinsCarryTheSixSignals : Obligations.SixPinsCarryTheSixSignals := by
  intro c o
  exact ⟨pinLevel_enable c o, pinLevel_registerSelect c o, fun _ hi => pinLevel_data c o hi,
    fun _ _ hpin => pinLevel_other c o hpin, c.pins_nodup⟩

end Sys2Proof.Machine
end

section
/-! PROOF. What a step does not read: a busy step ignores the host, and no step is decided by OUT (spec/10_state.md R21;
spec/20_memory.md R52, R68). -/

namespace Sys2Proof.Machine

/-- After the last micro-operation the operation is retired (R29). -/
theorem afterMicro_last {len : Nat} {s : State} (h : s.upc.toNat + 1 = len) (m : MicroOp) :
    afterMicro len m s = (perform m s).retire := if_pos h

/-- After any other micro-operation UPC goes on to the next (R29). -/
theorem afterMicro_not_last {len : Nat} {s : State} (h : s.upc.toNat + 1 ≠ len) (m : MicroOp) :
    afterMicro len m s = (perform m s).nextMicro := if_neg h

theorem afterMicro_withProgram (len : Nat) (m : MicroOp) (s : State) (p : List HostEntry) :
    afterMicro len m (s.withProgram p) = (afterMicro len m s).withProgram p := by
  by_cases hlast : s.upc.toNat + 1 = len
  · rw [afterMicro_last (s := s) hlast, afterMicro_last (s := s.withProgram p) hlast]
    rfl
  · rw [afterMicro_not_last (s := s) hlast, afterMicro_not_last (s := s.withProgram p) hlast]
    rfl

/-- Settles O37: a busy step is the micro-operation at UPC of the word in IR, which keeps any host program. -/
theorem busyStepIgnoresTheHost : Obligations.BusyStepIgnoresTheHost := by
  intro s t p hbusy hstep
  cases step_cases hstep with
  | idle hir => exact absurd hir hbusy
  | issue _ _ _ hir => exact absurd hir hbusy
  | micro w i m hir hd hm ht =>
    have hother := step_micro (s := s.withProgram p) hir hd hm
    rw [afterMicro_withProgram] at hother
    rw [ht]
    exact hother

/-- The state with another OUT. -/
def State.withOut (s : State) (o : Out) : State := { s with out := o }

section
variable (s : State) (o : Out)

@[simp] theorem State.withOut_out : (s.withOut o).out = o := rfl
@[simp] theorem State.withOut_ir : (s.withOut o).ir = s.ir := rfl
@[simp] theorem State.withOut_upc : (s.withOut o).upc = s.upc := rfl
@[simp] theorem State.withOut_trace : (s.withOut o).trace = s.trace := rfl
@[simp] theorem State.withOut_program : (s.withOut o).program = s.program := rfl
@[simp] theorem State.withOut_constants : (s.withOut o).constants = s.constants := rfl

end

theorem accept_withOut (w : Word) (p : List MicroOp) (s : State) (o : Out) :
    accept w p (s.withOut o) = (accept w p s).withOut o := by
  cases p <;> rfl

theorem afterMicro_withOut (len : Nat) (m : MicroOp) (s : State) (o : Out) :
    afterMicro len m (s.withOut o) =
      { afterMicro len m s with out := m.write o, trace := s.trace ++ [m.event (m.write o)] } := by
  by_cases hlast : s.upc.toNat + 1 = len
  · rw [afterMicro_last (s := s) hlast, afterMicro_last (s := s.withOut o) hlast]
    rfl
  · rw [afterMicro_not_last (s := s) hlast, afterMicro_not_last (s := s.withOut o) hlast]
    rfl

/-- Which delay a micro-operation records, if any, does not depend on OUT (10_state.md R27). -/
theorem delaysOf_event (m : MicroOp) (o o' : Out) : delaysOf [m.event o] = delaysOf [m.event o'] := by
  cases m <;> rfl

/-- Settles O38: each case of the step is chosen by IR, UPC and the host program, and only values of OUT follow OUT. -/
theorem sequencingIgnoresOut : Obligations.SequencingIgnoresOut := by
  intro s t o hstep
  cases step_cases hstep with
  | idle hir hp ht =>
    subst ht
    exact ⟨t.withOut o, step_idle hir hp, rfl, rfl, rfl, rfl, rfl, rfl⟩
  | issue e rest i hir hp hd ht =>
    refine ⟨t.withOut o, ?_, rfl, rfl, rfl, rfl, rfl, rfl⟩
    rw [ht, ← accept_withOut]
    exact step_issue (s := s.withOut o) hir hp hd
  | micro w i m hir hd hm ht =>
    have hother := step_micro (s := s.withOut o) hir hd hm
    rw [State.withOut_constants, afterMicro_withOut, ← ht] at hother
    have hdelay := delaysOf_event m (m.write o) (m.write s.out)
    exact ⟨_, hother, rfl, rfl, rfl, rfl, by simp [ht, delaysOf_append, hdelay], by simp [ht]⟩

end Sys2Proof.Machine
end

section
/-! PROOF. Whole operations: the state after a list of micro-operations, the steps of one operation to its end, and a
host program run entry by entry (spec/10_state.md R28, R29, R35; spec/20_memory.md R60). -/

namespace Sys2Proof

/-- The entry a well-formed instruction is written as decodes to it (30_encoding.md R90, R97). -/
theorem decodeEntry_encode {i : Instr} (h : i.wf = true) : decodeEntry (encode i) = .ok i := by
  have hword : isCommandClass i = false → decodeEntry (encode i) = .ok i := by
    intro hclass
    simp [encode, hclass, decodeEntry, decode_wordOf h, Instr.presentedAs]
  cases i with
  | clear => rfl
  | home => rfl
  | entryMode options => revert options; decide
  | displayCtrl options => revert options; decide
  | cursorShift options => revert options; decide
  | functionSet options => revert options; decide
  | setDdram address => revert address; decide
  | _ => exact hword rfl

namespace Machine

/-- The state after a list of micro-operations performed in order: OUT and the trace alone change (R21, R27). -/
def State.afterMicros (s : State) (p : List MicroOp) : State :=
  { s with out := outAfter s.out p, trace := s.trace ++ eventsOf s.out p }

section
variable (s : State) (p q : List MicroOp)

@[simp] theorem State.afterMicros_out : (s.afterMicros p).out = outAfter s.out p := rfl
@[simp] theorem State.afterMicros_ir : (s.afterMicros p).ir = s.ir := rfl
@[simp] theorem State.afterMicros_upc : (s.afterMicros p).upc = s.upc := rfl
@[simp] theorem State.afterMicros_trace : (s.afterMicros p).trace = s.trace ++ eventsOf s.out p := rfl
@[simp] theorem State.afterMicros_program : (s.afterMicros p).program = s.program := rfl
@[simp] theorem State.afterMicros_constants : (s.afterMicros p).constants = s.constants := rfl

@[simp] theorem State.afterMicros_nil : s.afterMicros [] = s := by simp [State.afterMicros]

theorem State.afterMicros_append : s.afterMicros (p ++ q) = (s.afterMicros p).afterMicros q := by
  simp [State.afterMicros, outAfter_append, eventsOf_append]

theorem State.afterMicros_cons (m : MicroOp) : s.afterMicros (m :: p) = (perform m s).afterMicros p :=
  s.afterMicros_append [m] p

end

/-- Retiring an operation that is not there changes nothing. -/
theorem State.retire_of_idle {s : State} (hir : s.ir = none) (hupc : s.upc = 0#13) : s.retire = s := by
  simp [State.retire, ← hir, ← hupc]

theorem State.withProgram_self (s : State) : s.withProgram s.program = s := rfl

theorem steps_succ {s t : State} (h : step s = .next t) (n : Nat) : steps (n + 1) s = steps n t := by
  simp [steps, h]

/-- Steps that answer, and then more. -/
theorem steps_add {n : Nat} {s t : State} (h : steps n s = .next t) (k : Nat) : steps (n + k) s = steps k t := by
  induction n generalizing s with
  | zero =>
    cases h
    rw [Nat.zero_add]
  | succ n ih =>
    cases hstep : step s with
    | next u =>
      rw [steps_succ hstep] at h
      rw [Nat.succ_add, steps_succ hstep, ih h]
    | fault r => simp [steps, hstep] at h
    | refused r => simp [steps, hstep] at h

/-- With `m :: q` left of a program from `n` on, `m` is at `n`, `q` is left after it, and `m` is the last one exactly
when `q` is empty. -/
theorem drop_eq_cons {p q : List MicroOp} {m : MicroOp} {n : Nat} (h : p.drop n = m :: q) :
    p[n]? = some m ∧ p.drop (n + 1) = q ∧ (n + 1 = p.length ↔ q = []) := by
  have hlen := congrArg List.length h
  rw [List.length_drop, List.length_cons] at hlen
  refine ⟨by simp [← List.head?_drop, h], by simp [← List.tail_drop, h], ?_⟩
  rw [← List.length_eq_zero_iff]
  omega

/-- An operation in progress performs the micro-operations `m :: q` it has left, and is then retired (R29). -/
theorem steps_busy {s : State} {w : Word} {i : Instr} {m : MicroOp} {q : List MicroOp} (hir : s.ir = some w)
    (hd : decode w = .ok i) (hleft : (uprog s.constants i).drop s.upc.toNat = m :: q) :
    steps (m :: q).length s = .next (s.afterMicros (m :: q)).retire := by
  induction q generalizing s m with
  | nil =>
    obtain ⟨hm, -, hlast⟩ := drop_eq_cons hleft
    have hstep := step_micro hir hd hm
    rw [afterMicro_last (hlast.2 rfl)] at hstep
    exact steps_succ hstep 0
  | cons m' q ih =>
    obtain ⟨hm, hrest, hlast⟩ := drop_eq_cons hleft
    have hstep := step_micro hir hd hm
    have hlt := (List.getElem?_eq_some_iff.mp hm).1
    rw [afterMicro_not_last (by simp [hlast])] at hstep
    rw [← upc_succ_toNat hlt] at hrest
    rw [List.length_cons, steps_succ hstep, s.afterMicros_cons]
    exact ih hir hrest

/-- The host's next entry runs to its end: one step for its acceptance, and one for each micro-operation (R28, R29). -/
theorem steps_entry {s : State} {i : Instr} {rest : List HostEntry} (hwf : i.wf = true) (hir : s.ir = none)
    (hne : uprog s.constants i ≠ []) (hp : s.program = encode i :: rest) :
    steps (1 + (uprog s.constants i).length) s =
      .next ((s.withProgram rest).afterMicros (uprog s.constants i)).retire := by
  have hstep := step_issue hir hp (decodeEntry_encode hwf)
  rw [accept_of_ne_nil hne] at hstep
  obtain ⟨m, q, hprog⟩ := List.exists_cons_of_ne_nil hne
  rw [Nat.add_comm, steps_succ hstep, hprog]
  exact steps_busy rfl (decode_wordOf hwf) (by simpa using hprog)

/-- From UPC 0 the same holds of an empty operation, whose acceptance is its end (R28). -/
theorem steps_entry_of_upc_zero {s : State} {i : Instr} {rest : List HostEntry} (hwf : i.wf = true) (hir : s.ir = none)
    (hupc : s.upc = 0#13) (hp : s.program = encode i :: rest) :
    steps (1 + (uprog s.constants i).length) s = .next ((s.withProgram rest).afterMicros (uprog s.constants i)) := by
  by_cases hnil : uprog s.constants i = []
  · have hstep := step_issue hir hp (decodeEntry_encode hwf)
    rw [hnil] at hstep ⊢
    rw [State.afterMicros_nil]
    exact steps_succ hstep 0
  · rw [steps_entry hwf hir hnil hp, State.retire_of_idle]
    · exact hir
    · exact hupc

/-- A host program's entries run one after the other, from UPC 0 (R35; 20_memory.md R60). -/
theorem steps_program {is : List Instr} {s : State} (hwf : ∀ i ∈ is, i.wf = true) (hir : s.ir = none)
    (hupc : s.upc = 0#13) (hp : s.program = is.map encode) :
    steps (is.length + ((is.map (uprog s.constants)).flatten).length) s =
      .next ((s.withProgram []).afterMicros ((is.map (uprog s.constants)).flatten)) := by
  induction is generalizing s with
  | nil =>
    rw [List.map_nil] at hp
    rw [← hp, State.withProgram_self]
    exact congrArg Host.Outcome.next s.afterMicros_nil.symm
  | cons i is ih =>
    obtain ⟨hwfi, hwfis⟩ := List.forall_mem_cons.mp hwf
    have hfirst := steps_entry_of_upc_zero hwfi hir hupc hp
    have hcount : (i :: is).length + (((i :: is).map (uprog s.constants)).flatten).length =
        1 + (uprog s.constants i).length + (is.length + ((is.map (uprog s.constants)).flatten).length) := by
      simp
      omega
    rw [hcount, steps_add hfirst, List.map_cons, List.flatten_cons, State.afterMicros_append]
    exact ih (s := (s.withProgram (is.map encode)).afterMicros (uprog s.constants i)) hwfis hir hupc rfl

/-- Settles O23: by induction on the host program, one entry after the other. -/
theorem hostProgramRunsInOrder : Obligations.HostProgramRunsInOrder :=
  fun _ _ hwf hir hupc hp => steps_program hwf hir hupc hp

end Machine

end Sys2Proof
end

section
/-! PROOF. Encodings: the decoder and the encoder are inverse to each other, the words R87 reserves are the ones no
well-formed instruction is presented as, and a controller command byte is sent as `CMD` sends it
(spec/30_encoding.md R81 to R92, R95, R97). -/

namespace Sys2Proof

/-- The operation code of the word presented for an instruction is its field `w[11:8]` (R81). -/
@[simp] theorem wordOf_opc (i : Instr) : (wordOf i).extractLsb' 8 4 = opcOf i := BitVec.extractLsb'_append_eq_left

/-- The operand byte of the word presented for an instruction is its field `w[7:0]` (R81). -/
@[simp] theorem wordOf_opd (i : Instr) : (wordOf i).extractLsb' 0 8 = operandByte i :=
  BitVec.extractLsb'_append_eq_right

/-- A word is its operation code before its operand byte (R81). -/
theorem opc_append_opd (w : Word) : w.extractLsb' 8 4 ++ w.extractLsb' 0 8 = w :=
  BitVec.extractLsb'_append_extractLsb' (w := 4) (len := 8)

/-- An operand byte with `opd[7:5]` 0 is that of a display position (R85). -/
theorem operandByte_setpos_fields {w : Word} (h : w.extractLsb' 5 3 = 0#3) :
    operandByte (.setpos (w.extractLsb' 4 1) (w.extractLsb' 0 4)) = w.extractLsb' 0 8 := by
  rw [operandByte, ← h, BitVec.extractLsb'_append_extractLsb'_eq_extractLsb' (start₂ := 4) rfl]
  exact BitVec.extractLsb'_append_extractLsb'_eq_extractLsb' (start₂ := 5) rfl

/-- `INIT` is well formed exactly with an operand from 0x0C to 0x0F (R83). -/
theorem init_wf_iff (dc : Byte) : (Instr.init dc).wf = true ↔ 0x0C ≤ dc.toNat ∧ dc.toNat ≤ 0x0F := by
  rw [← Machine.displayOn_eq_wf, Machine.displayOn, Bool.and_eq_true, decide_eq_true_iff, decide_eq_true_iff]

/-- The words R87 lists. -/
def ReservedWord (w : Word) : Prop :=
  6 ≤ (w.extractLsb' 8 4).toNat ∨
  (w.extractLsb' 8 4 = 0x0#4 ∧ ¬ (0x0C ≤ (w.extractLsb' 0 8).toNat ∧ (w.extractLsb' 0 8).toNat ≤ 0x0F)) ∨
  (w.extractLsb' 8 4 = 0x3#4 ∧ w.extractLsb' 5 3 ≠ 0#3)

/-- No well-formed instruction is presented as a reserved word. -/
theorem not_reservedWord_wordOf {i : Instr} (h : i.wf = true) : ¬ ReservedWord (wordOf i) := by
  cases i with
  | init dc => simp [ReservedWord, opcOf, operandByte, (init_wf_iff dc).1 h]
  | setpos row col =>
    have hzero : (wordOf (.setpos row col)).extractLsb' 5 3 = 0#3 := by revert row col; decide
    simp [ReservedWord, opcOf, hzero]
  | _ => simp [ReservedWord, opcOf]

/-- Every other word is the one presented for a well-formed instruction. -/
theorem exists_wordOf_eq {w : Word} (h : ¬ ReservedWord w) : ∃ i : Instr, i.wf = true ∧ wordOf i = w := by
  obtain ⟨hopc, hinit, hsetpos⟩ : (w.extractLsb' 8 4).toNat < 6 ∧
      (w.extractLsb' 8 4 = 0x0#4 → 0x0C ≤ (w.extractLsb' 0 8).toNat ∧ (w.extractLsb' 0 8).toNat ≤ 0x0F) ∧
      (w.extractLsb' 8 4 = 0x3#4 → w.extractLsb' 5 3 = 0#3) := by
    simpa [ReservedWord] using h
  have hword : ∀ i : Instr, opcOf i = w.extractLsb' 8 4 → operandByte i = w.extractLsb' 0 8 → wordOf i = w := by
    intro i hc hd
    rw [wordOf, hc, hd, opc_append_opd]
  have hcodes : ∀ c : BitVec 4, c.toNat < 6 → c = 0#4 ∨ c = 1#4 ∨ c = 2#4 ∨ c = 3#4 ∨ c = 4#4 ∨ c = 5#4 := by decide
  obtain hc | hc | hc | hc | hc | hc := hcodes _ hopc
  · exact ⟨.init (w.extractLsb' 0 8), (init_wf_iff _).2 (hinit hc), hword _ hc.symm rfl⟩
  · exact ⟨.cmd (w.extractLsb' 0 8), rfl, hword _ hc.symm rfl⟩
  · exact ⟨.data (w.extractLsb' 0 8), rfl, hword _ hc.symm rfl⟩
  · exact ⟨.setpos (w.extractLsb' 4 1) (w.extractLsb' 0 4), rfl,
      hword _ hc.symm (operandByte_setpos_fields (hsetpos hc))⟩
  · exact ⟨.shl (w.extractLsb' 0 8), rfl, hword _ hc.symm rfl⟩
  · exact ⟨.shr (w.extractLsb' 0 8), rfl, hword _ hc.symm rfl⟩

/-- The decoder refuses the reserved words and no others (R87). -/
theorem decode_error_iff_reservedWord (w : Word) : (∃ why, decode w = .error why) ↔ ReservedWord w := by
  constructor
  · rintro ⟨why, herror⟩
    by_contra hw
    obtain ⟨i, hwf, rfl⟩ := exists_wordOf_eq hw
    rw [decode_wordOf hwf] at herror
    cases herror
  · intro hw
    cases hd : decode w with
    | error why => exact ⟨why, rfl⟩
    | ok i =>
      obtain ⟨hwf, -, rfl⟩ := decode_ok hd
      exact absurd hw (not_reservedWord_wordOf hwf)

/-- Settles O2: the encoder's entry for each constructor, an operation word or a command byte, decodes to it. -/
theorem decodeAfterEncodeIsIdentity : Obligations.DecodeAfterEncodeIsIdentity :=
  fun _ hwf => decodeEntry_encode hwf

/-- Settles O3: the branches of both decoders, each of which keeps the fields it reads. -/
theorem decodedEntriesEncodeBack : Obligations.DecodedEntriesEncodeBack :=
  fun _ _ hdecode => decodeEntry_ok hdecode

/-- Settles O4: the words no well-formed instruction is presented as are the reserved ones, and the HOST step refuses
what does not decode. -/
theorem reservedWordsAreRefused : Obligations.ReservedWordsAreRefused :=
  fun w => ⟨decode_error_iff_reservedWord w, fun _ _ _ hdecode hir hprogram =>
    Machine.step_issue_refused hir hprogram hdecode⟩

/-- Settles O1: each word is compared with the masks of the decoder's rows. -/
theorem specWordsDecode : Obligations.SpecWordsDecode := by
  unfold Obligations.SpecWordsDecode
  decide

theorem wf_of_isCommandClass {i : Instr} (h : isCommandClass i = true) : i.wf = true := by
  cases i with
  | init dc => cases h
  | _ => rfl

theorem presentedAs_of_isCommandClass {i : Instr} (h : isCommandClass i = true) :
    i.presentedAs = .cmd (operandByte i) := if_pos h

theorem encode_of_isCommandClass {i : Instr} (h : isCommandClass i = true) : encode i = .cmdByte (operandByte i) :=
  if_pos h

/-- The operation an instruction is presented as has the same operation word. -/
@[simp] theorem wordOf_presentedAs (i : Instr) : wordOf i.presentedAs = wordOf i := by
  cases i <;> rfl

theorem wf_presentedAs {i : Instr} (h : i.wf = true) : i.presentedAs.wf = true :=
  (decode_ok (decode_wordOf h)).1

namespace Machine

/-- One step of an instruction is one step of the operation it is presented as. -/
theorem exec_presentedAs {i : Instr} (h : i.wf = true) (s : State) : exec i.presentedAs s = exec i s := by
  rw [exec_eq_operate_of_wf (wf_presentedAs h), exec_eq_operate_of_wf h, wordOf_presentedAs, uprog_presentedAs]

/-- Settles O5: a command class is presented as `CMD` with its byte, with the same word and micro-program. -/
theorem commandBytesArePresentedAsCmd : Obligations.CommandBytesArePresentedAsCmd := by
  intro i hclass
  have hwf := wf_of_isCommandClass hclass
  have hcmd := presentedAs_of_isCommandClass hclass
  have hword : portWord (encode i) = wordOf i := by
    rw [encode_of_isCommandClass hclass, ← wordOf_presentedAs, hcmd]
    rfl
  exact ⟨encode_of_isCommandClass hclass, hword, hcmd ▸ decode_wordOf hwf,
    fun s => hcmd ▸ (exec_presentedAs hwf s).symm⟩

/-- Settles O19: a display-control byte outside the range is no well-formed operand of `INIT`. -/
theorem initRefusesReservedOperands : Obligations.InitRefusesReservedOperands := by
  intro dc s hdc
  have hoff : ¬ displayOn dc = true := by rwa [displayOn_eq_wf, init_wf_iff]
  exact if_neg hoff

/-- The mask 0x0F keeps the low nibble whole. -/
theorem setWidth_and_lowNibble (b : Byte) : (b &&& 0x0F#8).setWidth 4 = lo b := by
  have hmask : (0x0F#8).setWidth 4 = BitVec.allOnes 4 := rfl
  rw [BitVec.setWidth_and, hmask, BitVec.and_allOnes, BitVec.setWidth_eq_extractLsb' (by decide), lo]

/-- The nibble sent first, as R89 writes it. -/
theorem hi_eq_shift_and (b : Byte) : hi b = ((b >>> 4) &&& 0x0F#8).setWidth 4 := by
  rw [setWidth_and_lowNibble]
  ext n hn
  simp [hi, lo]

/-- The nibble sent second, as R89 writes it. -/
theorem lo_eq_and (b : Byte) : lo b = (b &&& 0x0F#8).setWidth 4 := (setWidth_and_lowNibble b).symm

theorem hi_append_lo (b : Byte) : hi b ++ lo b = b := BitVec.extractLsb'_append_extractLsb' (w := 4) (len := 4)

/-- The six bits of the bus frame, as R88 writes them. -/
theorem busFrame_toBits (rs : Bool) (n : Nibble) :
    (busFrame rs n).toBits = 0x20#6 ||| ((BitVec.ofBool rs).setWidth 6 <<< 4) ||| n.setWidth 6 := by
  revert rs n
  decide

/-- The fourth event of a frame is its Enable pulse, which shows the bus frame from any OUT (R88, R117). -/
theorem eventsOf_frame_pulse (o : Out) (rs : Bool) (n : Nibble) :
    (eventsOf o (frame rs n))[3]? = some (.pin (busFrame rs n)) := rfl

/-- Settles O6: the events of a frame, the bits of its pulse, and the two frames of a byte. -/
theorem busFrameAndNibbleSplit : Obligations.BusFrameAndNibbleSplit := by
  refine ⟨fun o rs n => ⟨eventsOf_frame_pulse o rs n, busFrame_toBits rs n⟩, fun b =>
    ⟨hi_eq_shift_and b, lo_eq_and b, hi_append_lo b, fun o rs hlow => ?_⟩⟩
  have hframes := latchedFrom_byteFrames o rs b hlow []
  rwa [List.append_nil] at hframes

/-- The micro-program of a byte is the one the spec lists (R89, R117, R118). -/
theorem byteFrames_eq_listedByte (rs : Bool) (b : Byte) : byteFrames rs b = listedByte rs b := by
  rw [byteFrames, listedByte, hi_eq_shift_and, lo_eq_and]
  rfl

/-- A well-formed instruction runs as its operation word and its micro-program (10_state.md R28, R29). -/
theorem runsAs_wordOf_uprog {i : Instr} (h : i.wf = true) : RunsAs i (wordOf i) (fun k => uprog k i) := by
  intro s
  beta_reduce
  rw [exec_eq_operate_of_wf h]
  refine ⟨fun hir hnil => ?_, fun hir hne => ?_, fun m hir hm => ?_⟩
  · rw [operate_idle hir, hnil, accept_nil]
  · rw [operate_idle hir, accept_of_ne_nil hne]
    rfl
  · rw [operate_own hir, advance_eq hm, ← hir]
    split <;> rfl

/-- A command class has the micro-program of one byte sent with RS = 0 (R84, R119). -/
theorem uprog_of_isCommandClass {i : Instr} (h : isCommandClass i = true) (k : Constants) :
    uprog k i = listedByte false (operandByte i) := by
  rw [← uprog_presentedAs, presentedAs_of_isCommandClass h, ← byteFrames_eq_listedByte]
  rfl

/-- A command class runs as its byte sent with RS = 0, under its operation word. -/
theorem runsAs_of_isCommandClass {i : Instr} {w : Word} {b : Byte} (h : isCommandClass i = true)
    (hw : wordOf i = w) (hb : operandByte i = b) : RunsAs i w (fun _ => listedByte false b) := by
  have hrun := runsAs_wordOf_uprog (wf_of_isCommandClass h)
  simpa only [uprog_of_isCommandClass h, hw, hb] using hrun

/-- Settles O20: for each class the word and the byte its pattern gives, over every value of its free bits. -/
theorem commandBytesAreSentAsTheirByte : Obligations.CommandBytesAreSentAsTheirByte := by
  refine ⟨runsAs_of_isCommandClass rfl rfl rfl, runsAs_of_isCommandClass rfl rfl rfl, ?entryMode, ?displayCtrl,
    ?cursorShift, ?functionSet, ?setDdram⟩
  case entryMode => exact fun o => runsAs_of_isCommandClass rfl (by revert o; decide) (by revert o; decide)
  case displayCtrl => exact fun o => runsAs_of_isCommandClass rfl (by revert o; decide) (by revert o; decide)
  case cursorShift => exact fun o => runsAs_of_isCommandClass rfl (by revert o; decide) (by revert o; decide)
  case functionSet => exact fun o => runsAs_of_isCommandClass rfl (by revert o; decide) (by revert o; decide)
  case setDdram => exact fun a => runsAs_of_isCommandClass rfl (by revert a; decide) (by revert a; decide)

end Machine

end Sys2Proof
end

section
/-! PROOF. The bus primitives as a step performs them: which fields each micro-operation writes, where RSTLINES stands,
and the two byte operations (spec/40_bus_primitives.md R110 to R113, R117 to R120). -/

namespace Sys2Proof.Machine

theorem rstlines_not_mem_byteFrames (rs : Bool) (b : Byte) : MicroOp.rstlines ∉ byteFrames rs b := by
  simp [byteFrames, frame, strobe]

theorem rstlines_not_mem_repeatShift (b times : Byte) : MicroOp.rstlines ∉ repeatShift b times := by
  simp [repeatShift, thenDelay, rstlines_not_mem_byteFrames]

/-- INIT resets the lines once, first of all (41_init_sequence.md R141). -/
theorem uprogInit_eq_rstlines_cons (k : Constants) (dc : Byte) :
    ∃ rest, uprogInit k dc = .rstlines :: rest ∧ MicroOp.rstlines ∉ rest :=
  ⟨(initSteps k dc).tail.flatten, rfl, by simp [initSteps, thenDelay, frame, strobe, byteFrames]⟩

/-- RSTLINES is only ever the micro-operation at UPC 0 of an INIT (R113). -/
theorem eq_init_of_rstlines {k : Constants} {i : Instr} {n : Nat} (h : (uprog k i)[n]? = some .rstlines) :
    n = 0 ∧ ∃ dc, i = .init dc := by
  have hmem := List.mem_of_getElem? h
  cases i with
  | init dc =>
    obtain ⟨rest, hprog, hrest⟩ := uprogInit_eq_rstlines_cons k dc
    rw [uprog, hprog] at h
    cases n with
    | zero => exact ⟨rfl, dc, rfl⟩
    | succ n =>
      rw [List.getElem?_cons_succ] at h
      exact absurd (List.mem_of_getElem? h) hrest
  | shl times => exact absurd hmem (rstlines_not_mem_repeatShift _ _)
  | shr times => exact absurd hmem (rstlines_not_mem_repeatShift _ _)
  | _ => exact absurd hmem (rstlines_not_mem_byteFrames _ _)

/-- Settles O12: the step writes what its micro-operation writes, and RSTLINES has but one place. -/
theorem microOpsWriteExactlyTheirFields : Obligations.MicroOpsWriteExactlyTheirFields := by
  intro s w i m hir hd hm
  refine ⟨_, step_micro hir hd hm, ?apply, ?en, ?retract, ?rstlines, ?dly⟩
  case apply =>
    rintro rs n rfl
    simp [MicroOp.write, MicroOp.event]
  case en =>
    rintro v rfl
    simp [MicroOp.write, MicroOp.event]
  case retract =>
    rintro rfl
    simp [MicroOp.write, MicroOp.event]
  case rstlines =>
    rintro rfl
    obtain ⟨hupc, hinit⟩ := eq_init_of_rstlines hm
    have hzero : s.upc = 0#13 := BitVec.eq_of_toNat_eq hupc
    simp [MicroOp.write, MicroOp.event, hzero, hinit]
  case dly =>
    rintro k rfl
    simp [MicroOp.write, MicroOp.event]

/-- Settles O15: the word and the list of each byte operation, as the spec writes them. -/
theorem cmdAndDataSendTwoFrames : Obligations.CmdAndDataSendTwoFrames := by
  intro b
  have hcmdWord : wordOf (.cmd b) = 0x100#12 ||| b.setWidth 12 := by revert b; decide
  have hdataWord : wordOf (.data b) = 0x200#12 ||| b.setWidth 12 := by revert b; decide
  rw [← hcmdWord, ← hdataWord, ← byteFrames_eq_listedByte, ← byteFrames_eq_listedByte]
  exact ⟨runsAs_wordOf_uprog rfl, runsAs_wordOf_uprog rfl⟩

end Sys2Proof.Machine
end

section
/-! PROOF. One operation run to its end, by its instruction's own steps and by the machine's: what it leaves in OUT and
what the controller latches of it (spec/40_bus_primitives.md R121, R122, R124, R128). -/

namespace Sys2Proof.Machine

/-- While an instruction's word is in IR, its own step is the machine's step. -/
theorem exec_eq_step {i : Instr} {s : State} (hwf : i.wf = true) (hir : s.ir = some (wordOf i)) :
    exec i s = step s := by
  rw [step_busy_exec hir (decode_wordOf hwf), exec_presentedAs hwf]

/-- Up to the end of the operation in progress the instruction's own steps are the machine's steps. -/
theorem execTimes_eq_steps {i : Instr} {s : State} {n : Nat} (hwf : i.wf = true) (hir : s.ir = some (wordOf i))
    (hn : s.upc.toNat + n ≤ (uprog s.constants i).length) : execTimes n i s = steps n s := by
  induction n generalizing s with
  | zero => rfl
  | succ n ih =>
    have hlt : s.upc.toNat < (uprog s.constants i).length := by omega
    have hstep := step_micro (m := (uprog s.constants i)[s.upc.toNat]) hir (decode_wordOf hwf) (by simp [hlt])
    rw [uprog_presentedAs] at hstep
    rw [execTimes, steps, exec_eq_step hwf hir, hstep]
    cases n with
    | zero => rfl
    | succ n =>
      rw [afterMicro_not_last (by omega)]
      refine ih (s := (perform _ s).nextMicro) hir ?_
      rw [State.nextMicro_upc, perform_upc, upc_succ_toNat hlt, State.nextMicro_constants, perform_constants]
      omega

/-- An accepted operation performs its whole micro-program and is retired (R128). -/
theorem steps_load {i : Instr} {s : State} (hwf : i.wf = true) (hne : uprog s.constants i ≠ []) :
    steps (uprog s.constants i).length (s.load (wordOf i)) = .next (s.afterMicros (uprog s.constants i)).retire := by
  obtain ⟨m, q, hprog⟩ := List.exists_cons_of_ne_nil hne
  rw [hprog]
  exact steps_busy (s := s.load (wordOf i)) rfl (decode_wordOf hwf) (by simpa using hprog)

/-- From an idle state an instruction's own steps accept it and perform its whole micro-program (R28, R128). -/
theorem execTimes_operation {i : Instr} {s : State} (hwf : i.wf = true) (hir : s.ir = none)
    (hne : uprog s.constants i ≠ []) :
    execTimes (1 + (uprog s.constants i).length) i s = .next (s.afterMicros (uprog s.constants i)).retire := by
  rw [Nat.add_comm, execTimes, exec_eq_operate_of_wf hwf, operate_idle hir, accept_of_ne_nil hne]
  exact (execTimes_eq_steps hwf rfl (by simp)).trans (steps_load hwf hne)

/-- Settles O22: the acceptance, and then the whole list, by the instruction's steps and by the machine's. -/
theorem operationRunsToCompletion : Obligations.OperationRunsToCompletion := by
  intro i s hwf hir hne
  refine ⟨?_, fun w rest hd hp => ?_⟩
  · rw [execTimes_operation hwf hir hne, hir]
    rfl
  · rw [← (decodeEntry_ok (e := .opWord w) hd).2] at hp
    rw [steps_entry hwf hir hne hp, hir]
    rfl

/-- Settles O29: every micro-program but the empty one ends in the idle pattern, and the invariant says so of the idle
states. -/
theorem idlePatternAfterEveryOperation : Obligations.IdlePatternAfterEveryOperation :=
  ⟨fun _ s hwf hir hne => ⟨_, execTimes_operation hwf hir hne, rfl, outAfter_uprog hne s.out⟩,
    fun _ hs hir => ((runInv_iff_idleInv hir).1 hs).2⟩

/-- From Enable low a frame latches its own nibble and nothing else (R122). -/
theorem latchedFrames_frame_of_low {o : Out} (h : o.e = false) (rs : Bool) (n : Nibble) :
    latchedFrames (eventsOf o (frame rs n)) = [(rs, n)] := by
  have hframes := latchedFrom_frame o rs n h []
  rwa [List.append_nil] at hframes

/-- From Enable high the nibble is latched once more, by the pulse already under way (R122; R223). -/
theorem latchedFrames_frame_of_high {o : Out} (h : o.e = true) (rs : Bool) (n : Nibble) :
    latchedFrames (eventsOf o (frame rs n)) = [(rs, n), (rs, n)] := by
  simp [latchedFrames, latchedFrom, frame, strobe, MicroOp.event, MicroOp.write, h]

theorem latchedFrames_byteFrames {o : Out} (h : o.e = false) (rs : Bool) (b : Byte) :
    latchedFrames (eventsOf o (byteFrames rs b)) = [(rs, hi b), (rs, lo b)] := by
  have hframes := latchedFrom_byteFrames o rs b h []
  rwa [List.append_nil] at hframes

/-- A byte's trace depends on RS only in the RS of its pin values (R122). -/
theorem clearRs_eventsOf_byteFrames (o : Out) (rs rs' : Bool) (b : Byte) :
    (eventsOf o (byteFrames rs b)).map Event.clearRs = (eventsOf o (byteFrames rs' b)).map Event.clearRs := rfl

/-- Settles O25: the latched frames of a frame from either level of Enable, and of the two byte operations' runs. -/
theorem byteOperationsLatchHighThenLow : Obligations.ByteOperationsLatchHighThenLow := by
  refine ⟨fun o rs n => ⟨fun h => latchedFrames_frame_of_low h rs n, fun h => latchedFrames_frame_of_high h rs n⟩,
    fun s b hir => ?_⟩
  have hcmd := execTimes_operation (i := .cmd b) (s := s) rfl hir (List.cons_ne_nil _ _)
  have hdata := execTimes_operation (i := .data b) (s := s) rfl hir (List.cons_ne_nil _ _)
  exact ⟨_, _, _, _, hcmd, rfl, rfl, hdata, rfl, rfl, clearRs_eventsOf_byteFrames s.out true false b,
    fun hlow => ⟨latchedFrames_byteFrames hlow false b, latchedFrames_byteFrames hlow true b⟩⟩

end Sys2Proof.Machine
end

section
/-! PROOF. Stability during a pulse: in every micro-program RS and D change only while Enable is low, once its first
micro-operation is past (spec/40_bus_primitives.md R125). -/

namespace Sys2Proof.Machine

/-- A micro-operation performed on OUT that changes RS or D has Enable at 0 before and after it (R125). -/
def MicroOp.StableOn (m : MicroOp) (o : Out) : Prop :=
  (m.write o).rs ≠ o.rs ∨ (m.write o).d ≠ o.d → o.e = false ∧ (m.write o).e = false

/-- So has each micro-operation of a list performed in order from a value of OUT. -/
def StableFrom (o : Out) : List MicroOp → Prop
  | [] => True
  | m :: p => m.StableOn o ∧ StableFrom (m.write o) p

@[simp] theorem stableFrom_nil (o : Out) : StableFrom o [] := trivial

@[simp] theorem stableFrom_cons (o : Out) (m : MicroOp) (p : List MicroOp) :
    StableFrom o (m :: p) ↔ m.StableOn o ∧ StableFrom (m.write o) p := Iff.rfl

theorem stableFrom_append (o : Out) (p q : List MicroOp) :
    StableFrom o (p ++ q) ↔ StableFrom o p ∧ StableFrom (outAfter o p) q := by
  induction p generalizing o with
  | nil => simp
  | cons m p ih => simp [ih, and_assoc]

/-- The micro-operation at any place of a stable list is stable on what those before it left. -/
theorem StableFrom.stableOn_getElem? {p : List MicroOp} {n : Nat} {m : MicroOp} {o : Out} (hp : StableFrom o p)
    (hm : p[n]? = some m) : m.StableOn (outAfter o (p.take n)) := by
  have hsplit : p = p.take n ++ m :: p.drop (n + 1) := by
    obtain ⟨hlt, rfl⟩ := List.getElem?_eq_some_iff.mp hm
    simp
  rw [hsplit, stableFrom_append] at hp
  exact hp.2.1

/-- EN and DLY change neither RS nor D (R111, R114). -/
@[simp] theorem MicroOp.stableOn_en (v : Bool) (o : Out) : (MicroOp.en v).StableOn o :=
  fun h => absurd h (by simp [MicroOp.write])
@[simp] theorem MicroOp.stableOn_dly (k : DelayClass) (o : Out) : (MicroOp.dly k).StableOn o :=
  fun h => absurd h (by simp [MicroOp.write])

/-- APPLY and RETRACT keep Enable, so they are stable while it is low (R110, R112). -/
theorem stableFrom_frame {o : Out} (h : o.e = false) (rs : Bool) (n : Nibble) : StableFrom o (frame rs n) := by
  simp [frame, strobe, MicroOp.StableOn, MicroOp.write, h]

theorem stableFrom_byteFrames {o : Out} (h : o.e = false) (rs : Bool) (b : Byte) : StableFrom o (byteFrames rs b) :=
  (stableFrom_append o _ _).2 ⟨stableFrom_frame h rs _, stableFrom_frame rfl rs _⟩

@[simp] theorem stableFrom_idle_frame (rs : Bool) (n : Nibble) : StableFrom Out.idle (frame rs n) :=
  stableFrom_frame rfl rs n
@[simp] theorem stableFrom_idle_byteFrames (rs : Bool) (b : Byte) : StableFrom Out.idle (byteFrames rs b) :=
  stableFrom_byteFrames rfl rs b

@[simp] theorem stableFrom_thenDelay (o : Out) (p : List MicroOp) (k : DelayClass) :
    StableFrom o (thenDelay p k) ↔ StableFrom o p := by
  simp [thenDelay, stableFrom_append]

theorem stableFrom_repeatShift {o : Out} (h : o.e = false) (b times : Byte) : StableFrom o (repeatShift b times) := by
  rw [repeatShift]
  induction times.toNat generalizing o with
  | zero => trivial
  | succ n ih =>
    rw [List.replicate_succ, List.flatten_cons, stableFrom_append, stableFrom_thenDelay, outAfter_thenDelay]
    exact ⟨stableFrom_byteFrames h false b, ih rfl⟩

theorem stableFrom_uprogInit {o : Out} (h : o.e = false) (k : Constants) (dc : Byte) :
    StableFrom o (uprogInit k dc) := by
  simp [uprogInit, initSteps, stableFrom_append, stableFrom_frame, MicroOp.StableOn, MicroOp.write, h]

/-- From Enable low every micro-program is stable. -/
theorem stableFrom_uprog {o : Out} (h : o.e = false) (k : Constants) (i : Instr) : StableFrom o (uprog k i) := by
  obtain ⟨dc, hprog⟩ | ⟨rs, b, hprog⟩ | ⟨b, times, -, hprog⟩ := uprog_cases k i
  · exact hprog ▸ stableFrom_uprogInit h k dc
  · exact hprog ▸ stableFrom_byteFrames h rs b
  · exact hprog ▸ stableFrom_repeatShift h b times

/-- A micro-program that is not empty begins with RSTLINES, or with APPLY and the first EN(0) of its strobe (R113,
R116, R117). -/
theorem uprog_head {k : Constants} {i : Instr} (hne : uprog k i ≠ []) :
    (∃ q, uprog k i = .rstlines :: q) ∨ ∃ rs n q, uprog k i = .apply rs n :: .en false :: q := by
  obtain ⟨dc, hprog⟩ | ⟨rs, b, hprog⟩ | ⟨b, times, -, hprog⟩ := uprog_cases k i
  · exact .inl ⟨_, hprog⟩
  · exact .inr ⟨rs, _, _, hprog⟩
  · rw [repeatShift] at hprog
    cases htimes : times.toNat with
    | zero => simp [hprog, htimes] at hne
    | succ n =>
      rw [htimes, List.replicate_succ] at hprog
      exact .inr ⟨false, _, _, hprog⟩

/-- After its first micro-operation a micro-program is stable from any OUT: RSTLINES and the first EN(0) overwrite
whatever level Enable had. -/
theorem stableFrom_tail_uprog {k : Constants} {i : Instr} {m : MicroOp} {p : List MicroOp} (h : uprog k i = m :: p)
    (o : Out) : StableFrom (m.write o) p := by
  have hlow : StableFrom { o with e := false } (m :: p) := h ▸ stableFrom_uprog rfl k i
  obtain ⟨q, hq⟩ | ⟨rs, n, q, hq⟩ := uprog_head (h ▸ List.cons_ne_nil m p)
  · obtain ⟨rfl, rfl⟩ := List.cons.inj (h.symm.trans hq)
    exact hlow.2
  · obtain ⟨rfl, rfl⟩ := List.cons.inj (h.symm.trans hq)
    exact ⟨MicroOp.stableOn_en false _, hlow.2.2⟩

/-- A micro-operation of a micro-program is stable unless it is the first one and finds Enable high. -/
theorem stableOn_uprog {k : Constants} {i : Instr} {n : Nat} {m : MicroOp} (hm : (uprog k i)[n]? = some m) {o : Out}
    (ho : o.e = false ∨ n ≠ 0) : m.StableOn (outAfter o ((uprog k i).take n)) := by
  obtain hlow | hn := ho
  · exact (stableFrom_uprog hlow k i).stableOn_getElem? hm
  · obtain ⟨n, rfl⟩ := Nat.exists_eq_succ_of_ne_zero hn
    cases hprog : uprog k i with
    | nil => simp [hprog] at hm
    | cons m' p =>
      rw [hprog] at hm
      exact (stableFrom_tail_uprog hprog o).stableOn_getElem? hm

/-- Settles O30: only a micro-operation writes OUT; it is the first of its operation with Enable low, since an empty
trace has not written Enable, or a later one. -/
theorem pinsAreStableDuringAPulse : Obligations.PinsAreStableDuringAPulse := by
  intro s t hs hlow hstep hchange
  cases step_cases hstep with
  | idle _ _ ht => simp [ht] at hchange
  | issue _ _ _ _ _ _ ht => simp [ht] at hchange
  | micro w i m hir hd hm ht =>
    obtain ⟨j, o, before, hj, -, hout, htrace, hstart⟩ := (runInv_iff_busyInv hir).1 hs
    obtain rfl : i = j := Except.ok.inj (hd.symm.trans hj)
    have ho : o.e = false ∨ s.upc.toNat ≠ 0 := by
      obtain rfl | rfl := hstart
      · exact .inl rfl
      · refine .inr fun hzero => ?_
        simp [enableWasLow, htrace, hzero] at hlow
    have hstable := stableOn_uprog hm ho
    rw [← hout] at hstable
    rw [ht, afterMicro_out] at hchange ⊢
    exact hstable hchange

end Sys2Proof.Machine
end

section
/-! PROOF. Time inside a byte: the timed events of a frame from Enable low, their Enable edges, and the times of a frame
that stands anywhere in a timed trace (spec/40_bus_primitives.md R129). -/

namespace Sys2Proof.Machine

/-- The events of `FRAME(rs, n)` from a value of OUT, its two strobe delays lasting `d₁` and `d₂` and its settle delay
`d₃`, and its pin writes no time (R117, R129). -/
def timedFrame (o : Out) (rs : Bool) (n : Nibble) (d₁ d₂ d₃ : Nat) : List TimedEvent :=
  List.zipWith TimedEvent.mk (eventsOf o (frame rs n)) [0, 0, d₁, 0, d₂, 0, d₃, 0]

section
variable (o : Out) (rs : Bool) (n : Nibble) (d₁ d₂ d₃ : Nat)

@[simp] theorem timedFrame_length : (timedFrame o rs n d₁ d₂ d₃).length = 8 := rfl

/-- Until its retraction a frame shows its own RS and nibble in every pin value (R117). -/
theorem timedFrame_presents {x : TimedEvent} (hx : x ∈ (timedFrame o rs n d₁ d₂ d₃).take 7) {v : Out}
    (hv : x.event = .pin v) : v.rs = rs ∧ v.d = n := by
  simp only [timedFrame, frame, strobe, eventsOf, MicroOp.event, MicroOp.write, List.cons_append, List.nil_append,
    List.zipWith_cons_cons, List.take_succ_cons, List.take_zero, List.mem_cons, List.not_mem_nil, or_false] at hx
  obtain rfl | rfl | rfl | rfl | rfl | rfl | rfl := hx <;> cases hv <;> exact ⟨rfl, rfl⟩

/-- From Enable low a frame has one pulse, between its two strobe delays and its settle delay (R129). -/
theorem enableEdges_timedFrame_append (h : o.e = false) (now : Nat) (l : List TimedEvent) :
    enableEdges false now (timedFrame o rs n d₁ d₂ d₃ ++ l) =
      (true, now + d₁) :: (false, now + d₁ + d₂) :: enableEdges false (now + d₁ + d₂ + d₃) l := by
  simp [timedFrame, frame, strobe, MicroOp.event, MicroOp.write, enableEdges, h]

/-- A frame is retracted at its end, after its three delays. -/
theorem startOf_retract_timedFrame (l : List TimedEvent) :
    startOf 7 (timedFrame o rs n d₁ d₂ d₃ ++ l) = d₁ + d₂ + d₃ := by
  simp [timedFrame, frame, strobe, Nat.add_assoc]

/-- A frame lasts as long as its three delays. -/
theorem startOf_end_timedFrame : startOf 8 (timedFrame o rs n d₁ d₂ d₃) = d₁ + d₂ + d₃ := by
  simp [timedFrame, frame, strobe, Nat.add_assoc]

end

/-- Timed events of a frame, legal for `t`, are the frame's with some legal durations (R114, R129). -/
theorem exists_timedFrame {t : Timing} {o : Out} {rs : Bool} {n : Nibble} {l : List TimedEvent}
    (hl : l.map (·.event) = eventsOf o (frame rs n)) (hlegal : ∀ x ∈ l, x.legal t = true) :
    ∃ d₁ d₂ d₃, l = timedFrame o rs n d₁ d₂ d₃ ∧ t.strobe ≤ d₁ ∧ t.strobe ≤ d₂ ∧ t.settle ≤ d₃ := by
  have hlen : l.length = 8 := by simpa using congrArg List.length hl
  match l, hlen with
  | [⟨e₀, x₀⟩, ⟨e₁, x₁⟩, ⟨e₂, d₁⟩, ⟨e₃, x₃⟩, ⟨e₄, d₂⟩, ⟨e₅, x₅⟩, ⟨e₆, d₃⟩, ⟨e₇, x₇⟩], _ =>
    simp only [frame, strobe, eventsOf, MicroOp.event, List.cons_append, List.nil_append, List.map_cons, List.map_nil,
      List.cons.injEq, and_true] at hl
    obtain ⟨rfl, rfl, rfl, rfl, rfl, rfl, rfl, rfl⟩ := hl
    simp only [List.forall_mem_cons, TimedEvent.legal_pin, TimedEvent.legal_delay] at hlegal
    obtain ⟨rfl, rfl, hd₁, rfl, hd₂, rfl, hd₃, rfl, -⟩ := hlegal
    exact ⟨d₁, d₂, d₃, rfl, hd₁, hd₂, hd₃⟩

/-- The time of a timed trace: the start of whatever follows it. -/
theorem startOf_append (l q : List TimedEvent) (n : Nat) :
    startOf (l.length + n) (l ++ q) = startOf l.length l + startOf n q := by
  induction l with
  | nil => simp
  | cons e l ih =>
    rw [List.length_cons, Nat.add_right_comm, List.cons_append, startOf_succ_cons, startOf_succ_cons, ih, Nat.add_assoc]

/-- The times of a frame that starts at time `now`, between other timed events (R129). -/
theorem frameTimes_timedFrame {t : Timing} {o : Out} {rs : Bool} {n : Nibble} {d₁ d₂ d₃ now : Nat} {p : List TimedEvent}
    (ht : t.legal = true) (hd₁ : t.strobe ≤ d₁) (hd₂ : t.strobe ≤ d₂) (hd₃ : t.settle ≤ d₃)
    (hnow : startOf p.length p = now) (q : List TimedEvent) :
    frameTimes t (p ++ (timedFrame o rs n d₁ d₂ d₃ ++ q)) p.length rs n (now + d₁) (now + d₁ + d₂) d₁ d₂ d₃ := by
  have hpulse : 450 ≤ d₂ := (Timing.legal_strobe ht).trans hd₂
  have hget : ∀ j, j < 8 →
      (p ++ (timedFrame o rs n d₁ d₂ d₃ ++ q))[p.length + j]? = (timedFrame o rs n d₁ d₂ d₃)[j]? := by
    intro j hj
    rw [List.getElem?_append_right (Nat.le_add_right _ _), Nat.add_sub_cancel_left, List.getElem?_append_left hj]
  have hstart := startOf_append p (timedFrame o rs n d₁ d₂ d₃ ++ q)
  rw [hnow] at hstart
  refine ⟨hget 2 (by decide), hget 4 (by decide), hget 6 (by decide), hd₁, hd₂, hpulse, hd₃, ?presented, ?setUp,
    le_rfl, ?hold⟩
  case presented =>
    intro j x v hj hx hv
    rw [hget j (by omega), ← List.getElem?_take_of_lt hj] at hx
    exact timedFrame_presents o rs n d₁ d₂ d₃ (List.mem_of_getElem? hx) hv
  case setUp => exact Nat.add_le_add_right (hstart 0).le d₁
  case hold =>
    rw [hstart, startOf_retract_timedFrame]
    omega

/-- Settles O44: the sixteen events are two timed frames, the second from the idle pattern. -/
theorem timeInsideAByte : Obligations.TimeInsideAByte := by
  intro t o rs b l ht ho hl hlegal
  rw [byteFrames, eventsOf_append, outAfter_frame] at hl
  obtain ⟨l₁, l₂, rfl, hl₁, hl₂⟩ := List.map_eq_append_iff.mp hl
  obtain ⟨hlegal₁, hlegal₂⟩ := List.forall_mem_append.mp hlegal
  obtain ⟨d₁, d₂, d₃, rfl, hd₁, hd₂, hd₃⟩ := exists_timedFrame hl₁ hlegal₁
  obtain ⟨d₁', d₂', d₃', rfl, hd₁', hd₂', hd₃'⟩ := exists_timedFrame hl₂ hlegal₂
  have hcycle := Timing.legal_cycle ht
  have hedges := enableEdges_timedFrame_append o rs (hi b) d₁ d₂ d₃ ho 0 (timedFrame Out.idle rs (lo b) d₁' d₂' d₃')
  have hedges' := enableEdges_timedFrame_append Out.idle rs (lo b) d₁' d₂' d₃' rfl (d₁ + d₂ + d₃) []
  have hfirst := frameTimes_timedFrame (o := o) (rs := rs) (n := hi b) (now := 0) (p := []) ht hd₁ hd₂ hd₃ rfl
    (timedFrame Out.idle rs (lo b) d₁' d₂' d₃')
  have hsecond := frameTimes_timedFrame (o := Out.idle) (rs := rs) (n := lo b) (p := timedFrame o rs (hi b) d₁ d₂ d₃)
    ht hd₁' hd₂' hd₃' (startOf_end_timedFrame o rs (hi b) d₁ d₂ d₃) []
  rw [Nat.zero_add] at hedges hfirst
  rw [List.append_nil] at hedges' hsecond
  refine ⟨_, _, _, _, d₁, d₂, d₃, d₁', d₂', d₃', ?edges, hfirst, hsecond, by omega, by omega⟩
  case edges => rw [hedges, hedges', enableEdges]

end Sys2Proof.Machine
end

section
/-! PROOF. The initialization sequence: its nine steps as the spec lists them, the trace it records from any OUT, the
frames it latches and the delays between them (spec/41_init_sequence.md R140 to R144). -/

namespace Sys2Proof.Machine

/-- The word presented for `INIT` is its operand, with operation code 0 (30_encoding.md R82). -/
theorem wordOf_init (dc : Byte) : wordOf (.init dc) = dc.setWidth 12 :=
  (BitVec.setWidth_eq_append (w := 12) (v := 8) (by decide)).symm

theorem frame_eq_listedFrame (rs : Bool) (n : Nibble) : frame rs n = listedFrame rs n := rfl

/-- The micro-program of INIT is the one R141 lists. -/
theorem uprogInit_eq_listedInit (k : Constants) (dc : Byte) : uprogInit k dc = listedInit k dc := by
  simp [uprogInit, initSteps, thenDelay, listedInit, byteFrames_eq_listedByte, frame_eq_listedFrame, homeByte,
    clearByte, addrCmdBit]

/-- Settles O18: INIT runs as its word and micro-program, which are those the spec writes. -/
theorem initRunsTheNineSteps : Obligations.InitRunsTheNineSteps := by
  intro dc hlow hhigh
  have hrun := runsAs_wordOf_uprog ((init_wf_iff dc).2 ⟨hlow, hhigh⟩)
  simpa only [wordOf_init, uprog, uprogInit_eq_listedInit] using hrun

/-- From any idle state INIT is accepted and performs its whole micro-program, 131 steps in all (R128, R140). -/
theorem execTimes_init {dc : Byte} {s : State} (hwf : (Instr.init dc).wf = true) (hir : s.ir = none) :
    execTimes 131 (.init dc) s = .next (s.afterMicros (uprogInit s.constants dc)).retire := by
  have hrun := execTimes_operation hwf hir (List.cons_ne_nil _ _)
  rwa [uprog, uprogInit_length] at hrun

/-- INIT ends in the idle pattern, whatever OUT was (R144). -/
theorem outAfter_uprogInit (o : Out) (k : Constants) (dc : Byte) : outAfter o (uprogInit k dc) = Out.idle :=
  outAfter_uprog (i := .init dc) (List.cons_ne_nil _ _) o

/-! ### The trace of INIT -/

@[simp] theorem eventsOf_thenDelay (o : Out) (p : List MicroOp) (k : DelayClass) :
    eventsOf o (thenDelay p k) = eventsOf o p ++ [.delay k] := by
  simp [thenDelay, eventsOf_append, MicroOp.event]

/-- From Enable low a frame overwrites the two other signals before it shows them, so no event depends on them
(40_bus_primitives.md R110, R117). -/
theorem eventsOf_frame_append_of_low {o : Out} (h : o.e = false) (rs : Bool) (n : Nibble) (p : List MicroOp) :
    eventsOf o (frame rs n ++ p) = eventsOf Out.idle (frame rs n ++ p) := by
  have hframe : eventsOf o (frame rs n) = eventsOf Out.idle (frame rs n) := by
    simp [frame, strobe, MicroOp.event, MicroOp.write, h]
  rw [eventsOf_append, eventsOf_append, hframe, outAfter_frame, outAfter_frame]

/-- The events of INIT after RSTLINES: the power-on wait, and the transfers as they run from the idle pattern (R141). -/
def initEvents (k : Constants) (dc : Byte) : List Event :=
  .delay .pwron :: eventsOf Out.idle ((initSteps k dc).drop 2).flatten

/-- Only the first event of INIT shows anything of OUT as the run found it: the data lines, which RSTLINES leaves
(R144). -/
theorem eventsOf_uprogInit (o : Out) (k : Constants) (dc : Byte) :
    eventsOf o (uprogInit k dc) = .pin { e := false, rs := false, d := o.d } :: initEvents k dc := by
  obtain ⟨rest, hrest⟩ : ∃ rest, ((initSteps k dc).drop 2).flatten = frame false k.hs ++ rest := ⟨_, rfl⟩
  have hprog : uprogInit k dc = .rstlines :: .dly .pwron :: (frame false k.hs ++ rest) := hrest ▸ rfl
  rw [hprog, initEvents, hrest, ← eventsOf_frame_append_of_low (o := MicroOp.rstlines.write o) rfl]
  rfl

/-- Settles O27: both runs go through their whole micro-program, which shows the OUT it found in its first event only. -/
theorem initForgetsTheStateOfThePins : Obligations.InitForgetsTheStateOfThePins := by
  intro s u dc hwf hs hu hconstants
  refine ⟨_, _, initEvents s.constants dc, execTimes_init hwf hs, execTimes_init hwf hu, ?_, ?_, ?_, ?_, rfl, rfl⟩
  · exact congrArg (s.trace ++ ·) (eventsOf_uprogInit s.out s.constants dc)
  · rw [hconstants]
    exact congrArg (u.trace ++ ·) (eventsOf_uprogInit u.out u.constants dc)
  · exact outAfter_uprogInit s.out s.constants dc
  · exact outAfter_uprogInit u.out u.constants dc

/-! ### The frames INIT latches -/

/-- The fifteen nibbles of INIT: three of the handshake, and two for each of six bytes (R142). -/
def initNibbles (k : Constants) (dc : Byte) : List Nibble :=
  [k.hs, k.hs, k.hs, hi homeByte, lo homeByte, hi clearByte, lo clearByte, hi k.fs, lo k.fs, hi dc, lo dc, hi k.em,
    lo k.em, hi addrCmdBit, lo addrCmdBit]

/-- INIT latches its nibbles with RS = 0 and nothing else, whatever OUT was: Enable is low after RSTLINES (R142, R113). -/
theorem latchedFrames_uprogInit (o : Out) (k : Constants) (dc : Byte) :
    latchedFrames (eventsOf o (uprogInit k dc)) = (initNibbles k dc).map (fun n => (false, n)) := by
  simp [eventsOf_uprogInit, latchedFrames, latchedFrom, initEvents, initSteps, eventsOf_append, initNibbles]

/-- A legal display-control byte has the high nibble 0 (30_encoding.md R83). -/
theorem hi_eq_zero_of_init_wf {dc : Byte} (h : (Instr.init dc).wf = true) : hi dc = 0x0#4 := by
  revert dc; decide

/-! ### The delays of INIT -/

/-- A delay of a micro-program stands at its own place in the trace (10_state.md R27). -/
theorem eventsOf_getElem?_of_dly {p : List MicroOp} {n : Nat} {k : DelayClass} (h : p[n]? = some (.dly k)) (o : Out) :
    (eventsOf o p)[n]? = some (.delay k) := by
  induction p generalizing n o with
  | nil => simp at h
  | cons m p ih =>
    cases n with
    | zero =>
      obtain rfl : m = .dly k := by simpa using h
      rfl
    | succ n => exact ih h _

/-- The delays of one frame: two strobe delays and a settle delay (40_bus_primitives.md R117). -/
def frameDelays : List DelayClass := [.strobe, .strobe, .settle]

theorem delaysOf_frame (o : Out) (rs : Bool) (n : Nibble) : delaysOf (eventsOf o (frame rs n)) = frameDelays := rfl

/-- The delays of INIT in order: those of its fifteen frames, and the nine long ones between them (R141, R142). -/
def initDelays : List DelayClass :=
  .pwron :: frameDelays ++ .hs1 :: frameDelays ++ .hs2 :: frameDelays ++ .hs3 :: frameDelays ++ frameDelays ++
  .home :: frameDelays ++ frameDelays ++ .clear :: frameDelays ++ frameDelays ++ .fset :: frameDelays ++ frameDelays ++
  .dctl :: frameDelays ++ frameDelays ++ .emode :: frameDelays ++ frameDelays

theorem delaysOf_uprogInit (o : Out) (k : Constants) (dc : Byte) :
    delaysOf (eventsOf o (uprogInit k dc)) = initDelays := by
  simp [eventsOf_uprogInit, initEvents, initSteps, eventsOf_append, delaysOf, delaysOf_append, delaysOf_frame,
    delaysOf_byteFrames, frameDelays, initDelays]

/-- Settles O26: the run of the whole micro-program, its latched nibbles, the places of its long delays and all its
delays in order. -/
theorem initLatchesFifteenFrames : Obligations.InitLatchesFifteenFrames := by
  intro s dc hlow hhigh hir hconstants
  have hwf := (init_wf_iff dc).2 ⟨hlow, hhigh⟩
  have hlong {n : Nat} {c : DelayClass} (h : (uprogInit s.constants dc)[n]? = some (.dly c)) :=
    eventsOf_getElem?_of_dly h s.out
  refine ⟨_, eventsOf s.out (uprogInit s.constants dc), execTimes_init hwf hir, rfl, outAfter_uprogInit _ _ _, rfl,
    by simp, ?latched, hlong rfl, hlong rfl, hlong rfl, hlong rfl, hlong rfl, hlong rfl, hlong rfl, hlong rfl,
    hlong rfl, ?delays⟩
  case latched =>
    rw [latchedFrames_uprogInit, hconstants, initNibbles, hi_eq_zero_of_init_wf hwf]
    rfl
  case delays =>
    rw [delaysOf_uprogInit]
    exact ⟨rfl, by decide, by decide, by decide⟩

end Sys2Proof.Machine
end

section
/-! PROOF. The convenience operations: the address byte SETPOS sends, the shift commands SHL and SHR repeat, and the
operations they are equivalent to (spec/42_position_and_shift.md R150 to R152, R154). -/

namespace Sys2Proof

/-- The word presented for an instruction is its operation code shifted before its operand byte (30_encoding.md R81). -/
theorem wordOf_eq_or (i : Instr) : wordOf i = (opcOf i).setWidth 12 <<< 8 ||| (operandByte i).setWidth 12 := by
  rw [wordOf, BitVec.append_def, BitVec.shiftLeftZeroExtend_eq, BitVec.setWidth'_eq]

/-- The word of a display position has the row in bit 4 and the column below it (30_encoding.md R85). -/
theorem wordOf_setpos (row : BitVec 1) (col : Nibble) :
    wordOf (.setpos row col) = 0x300#12 ||| (row.setWidth 12 <<< 4) ||| col.setWidth 12 := by
  revert row col; decide

/-- A word of operation code 3 with `opd[7:5]` not 0 is no display position (30_encoding.md R85, R87). -/
theorem decode_reservedSetpos {w : Word} (hopc : w.extractLsb' 8 4 = 0x3#4) (hzero : w.extractLsb' 5 3 ≠ 0b000#3) :
    decode w = .error .reservedSetposOperand := by
  have hinit : w &&& 0xFFC#12 ≠ 0x00C#12 := fun h => by
    have hcode := extractLsb'_of_and_eq 8 4 h rfl
    rw [hopc] at hcode
    exact absurd hcode (by decide)
  have hlegal : w &&& 0xFE0#12 ≠ 0x300#12 := fun h => hzero (extractLsb'_of_and_eq 5 3 h rfl)
  have hreserved : w &&& 0xF00#12 = 0x300#12 := by
    have hmask : 0xF00#12 = BitVec.allOnes 4 ++ 0#8 := rfl
    rw [← opc_append_opd w, hopc, hmask, BitVec.and_append, BitVec.and_allOnes, BitVec.and_zero]
    rfl
  simp [decode, hinit, hlegal, hreserved]

namespace Machine

/-- The bits of the set-cursor-address byte (R150). -/
theorem addrCmd_eq_append (row : BitVec 1) (col : Nibble) : addrCmd row col = 1#1 ++ (row ++ (0b00#2 ++ col)) := by
  revert row col; decide

/-- A position is at the base of its row plus its column (20_memory.md R58). -/
theorem ddramAddr_toNat (row : BitVec 1) (col : Nibble) :
    (ddramAddr row col).toNat = (if row = 1#1 then 0x40 else 0x00) + col.toNat := by
  revert row col; decide

theorem runsAs_setpos (row : BitVec 1) (col : Nibble) :
    RunsAs (.setpos row col) (wordOf (.setpos row col)) (fun _ => listedByte false (addrCmd row col)) := by
  rw [← byteFrames_eq_listedByte]
  exact runsAs_wordOf_uprog rfl

/-- Settles O16: SETPOS runs as its word and the byte of its position, and its row of the decoder needs `opd[7:5]` 0. -/
theorem setposSendsTheAddressCommand : Obligations.SetposSendsTheAddressCommand := by
  refine ⟨fun row col => ?_, fun w hopc hzero => decode_reservedSetpos hopc hzero⟩
  rw [← wordOf_setpos]
  exact ⟨runsAs_setpos row col, decode_wordOf rfl, addrCmd_eq_append row col, ddramAddr_toNat row col⟩

/-- The micro-program of a shift is the one the spec lists (R151, R152). -/
theorem repeatShift_eq_listedShifts (b times : Byte) : repeatShift b times = listedShifts b times.toNat := by
  rw [repeatShift]
  induction times.toNat with
  | zero => rfl
  | succ n ih =>
    rw [List.replicate_succ, List.flatten_cons, ih, thenDelay, byteFrames_eq_listedByte, List.append_assoc]
    rfl

/-- Settles O17: each shift runs as its word and its micro-program, which are those the spec writes. -/
theorem shiftsRepeatTheirCommand : Obligations.ShiftsRepeatTheirCommand := by
  intro n
  have hshl := runsAs_wordOf_uprog (i := .shl n) rfl
  have hshr := runsAs_wordOf_uprog (i := .shr n) rfl
  simp only [wordOf_eq_or, uprog, uprogShl, uprogShr, repeatShift_eq_listedShifts] at hshl hshr
  exact ⟨hshl, hshr⟩

/-- Shifts made in two operations are made in one, as long as the operand can count them (R154). -/
theorem repeatShift_add (b : Byte) {n m : Byte} (h : n.toNat + m.toNat ≤ 255) :
    repeatShift b (n + m) = repeatShift b n ++ repeatShift b m := by
  have hsum : (n + m).toNat = n.toNat + m.toNat := BitVec.toNat_add_of_lt (by omega)
  rw [repeatShift, hsum, List.replicate_add, List.flatten_append]
  rfl

/-- The events of one operation with the sum of two counts are those of the two operations (R154). -/
theorem eventsOf_repeatShift_add (o : Out) (b : Byte) {n m : Byte} (h : n.toNat + m.toNat ≤ 255) :
    eventsOf o (repeatShift b (n + m)) =
      eventsOf o (repeatShift b n) ++ eventsOf (outAfter o (repeatShift b n)) (repeatShift b m) := by
  rw [repeatShift_add b h, eventsOf_append]

/-- One shift is its command byte and the delay after it (R151). -/
theorem repeatShift_one (b : Byte) : repeatShift b 1#8 = thenDelay (byteFrames false b) .shift :=
  List.append_nil _

/-- From Enable low the controller latches the two nibbles of the shift byte, once for each shift (R154). -/
theorem latchedFrames_repeatShift {o : Out} (h : o.e = false) (b times : Byte) :
    latchedFrames (eventsOf o (repeatShift b times)) =
      (List.replicate times.toNat [(false, hi b), (false, lo b)]).flatten := by
  rw [repeatShift, latchedFrames]
  induction times.toNat generalizing o with
  | zero => rfl
  | succ n ih =>
    rw [List.replicate_succ, List.flatten_cons, eventsOf_append, eventsOf_thenDelay, outAfter_thenDelay,
      outAfter_byteFrames, List.append_assoc, latchedFrom_byteFrames o false b h, List.singleton_append, latchedFrom,
      ih Out.idle_e, List.replicate_succ, List.flatten_cons]
    rfl

/-- Settles O28: the micro-programs on both sides are equal lists, and the frames of a shift are those of its byte. -/
theorem convenienceOperationsAreEquivalent : Obligations.ConvenienceOperationsAreEquivalent := by
  refine ⟨fun k o row col => rfl, fun k o n m h => ?sum, fun o => ?one, fun o n h => ?latched⟩
  case sum => exact ⟨eventsOf_repeatShift_add o k.shLeft h, eventsOf_repeatShift_add o k.shRight h⟩
  case one =>
    have hshl : uprog defaultConstants (.shl 1#8) = thenDelay (byteFrames false 0x18#8) .shift := repeatShift_one _
    rw [hshl, eventsOf_thenDelay]
    rfl
  case latched => exact ⟨latchedFrames_repeatShift h 0x18#8 n, latchedFrames_repeatShift h 0x1C#8 n⟩

end Machine

end Sys2Proof
end

section
/-! PROOF. The host pseudo-operations: the bytes of a text up to its terminator, the four digits of a number and their
ASCII codes, and the integer part and truncated fraction of a decimal (spec/43_host_pseudo_ops.md R162 to R167). -/

namespace Sys2Proof.Machine

/-- The bytes of a terminated text are those before its first terminator (R162). -/
theorem takeWhile_ne_terminator {text : List Byte} (h : 0x00#8 ∉ text) (after : List Byte) :
    (text ++ 0x00#8 :: after).takeWhile (fun c => c != 0x00#8) = text := by
  have hall : ∀ c ∈ text, (c != 0x00#8) = true := fun c hc => bne_iff_ne.2 (ne_of_mem_of_not_mem hc h)
  rw [List.takeWhile_append_of_pos hall, List.takeWhile_cons_of_neg (by decide), List.append_nil]

/-- Settles O45: the text is terminated, and its bytes are those before the terminator. -/
theorem printsSendsEachCharacterOnce : Obligations.PrintsSendsEachCharacterOnce := by
  intro text after h
  have hterminated : (text ++ 0x00#8 :: after).contains 0x00#8 = true := by simp
  rw [expandPrints, if_pos hterminated, takeWhile_ne_terminator h]

/-- The ASCII codes of the digits follow that of 0 (R167). -/
theorem digitCode_eq_add (d : Nat) : digitCode d = 0x30#8 + BitVec.ofNat 8 d := BitVec.ofNat_add 0x30 d

/-- Four digits are enough for a number up to 9999, and they are its decimal digits (R163). -/
theorem fourDigits_eq_of_le {m : Nat} (h : m ≤ 9999) :
    ∃ d₃ d₂ d₁ d₀ : Nat, d₃ ≤ 9 ∧ d₂ ≤ 9 ∧ d₁ ≤ 9 ∧ d₀ ≤ 9 ∧ m = 1000 * d₃ + 100 * d₂ + 10 * d₁ + d₀ ∧
      fourDigits m =
        [.data (0x30#8 + BitVec.ofNat 8 d₃), .data (0x30#8 + BitVec.ofNat 8 d₂),
         .data (0x30#8 + BitVec.ofNat 8 d₁), .data (0x30#8 + BitVec.ofNat 8 d₀)] := by
  refine ⟨m / 1000, m / 100 % 10, m / 10 % 10, m % 10, by omega, by omega, by omega, by omega, by omega, ?_⟩
  simp only [fourDigits, digitCode_eq_add]

theorem expandPrinti_of_inRange {v : Int} (h : -9999 ≤ v ∧ v ≤ 9999) :
    expandPrinti v = .ok ((if v < 0 then [.data minusCode] else []) ++ fourDigits v.natAbs) := if_pos h

theorem expandPrinti_of_not_inRange {v : Int} (h : ¬ (-9999 ≤ v ∧ v ≤ 9999)) :
    expandPrinti v = .error .integerOutOfRange := if_neg h

/-- Settles O46: in range the magnitude has four digits, and out of range the expansion is refused. -/
theorem printiSendsSignAndFourDigits : Obligations.PrintiSendsSignAndFourDigits := by
  refine fun v => ⟨fun h => ?inRange, expandPrinti_of_not_inRange⟩
  case inRange =>
    obtain ⟨d₃, d₂, d₁, d₀, h₃, h₂, h₁, h₀, hvalue, hdigits⟩ := fourDigits_eq_of_le (m := v.natAbs) (by omega)
    refine ⟨d₃, d₂, d₁, d₀, h₃, h₂, h₁, h₀, hvalue, ?_⟩
    rw [expandPrinti_of_inRange h, hdigits, minusCode]

section
variable {c : Int} {s ip r : Nat} (hvalue : c.natAbs = ip * 10 ^ s + r) (hr : r < 10 ^ s)
include hvalue hr

/-- Integer part and remainder of the magnitude are quotient and remainder by the power of ten. -/
theorem natAbs_div_mod : c.natAbs / 10 ^ s = ip ∧ c.natAbs % 10 ^ s = r :=
  (Nat.div_mod_unique (Nat.pow_pos (by decide))).2 ⟨by rw [hvalue, Nat.mul_comm, Nat.add_comm], hr⟩

/-- `trunc` keeps the sign and drops the remainder (R165). -/
theorem intPart_eq : Decimal.intPart { coeff := c, scale := s } = if c < 0 then -(ip : Int) else (ip : Int) := by
  simp only [Decimal.intPart, (natAbs_div_mod hvalue hr).1]

theorem fraction_eq : Decimal.fraction { coeff := c, scale := s } = r * 10000 / 10 ^ s := by
  simp only [Decimal.fraction, (natAbs_div_mod hvalue hr).2]

/-- The fraction is the largest number of ten-thousandths not above the remainder, so it has four digits (R165). -/
theorem fraction_bounds :
    let f := Decimal.fraction { coeff := c, scale := s }
    f * 10 ^ s ≤ r * 10000 ∧ r * 10000 < (f + 1) * 10 ^ s ∧ f ≤ 9999 := by
  have hpos : 0 < 10 ^ s := Nat.pow_pos (by decide)
  rw [fraction_eq hvalue hr]
  refine ⟨Nat.div_mul_le_self .., Nat.lt_mul_of_div_lt (Nat.lt_succ_self _) hpos, Nat.le_of_lt_succ ?_⟩
  exact Nat.div_lt_of_lt_mul (Nat.mul_lt_mul_of_pos_right hr (by decide))

/-- Between -1 and 0 the integer part would lose the sign: refused (R166 (b)). -/
theorem expandPrintf_of_negativeFraction (h : c < 0 ∧ ip = 0) :
    expandPrintf { coeff := c, scale := s } = .error .negativeFraction := by
  have hzero : Decimal.intPart { coeff := c, scale := s } = 0 := by
    rw [intPart_eq hvalue hr, if_pos h.1, h.2]
    rfl
  exact if_pos ⟨h.1, hzero⟩

/-- For every other number the outcome is that of PRINTI of the integer part, extended by point and fraction. -/
theorem expandPrintf_eq_map (h : ¬ (c < 0 ∧ ip = 0)) :
    expandPrintf { coeff := c, scale := s } =
      (expandPrinti (if c < 0 then -(ip : Int) else (ip : Int))).map
        (· ++ .data pointCode :: fourDigits (Decimal.fraction { coeff := c, scale := s })) := by
  have hnot : ¬ (c < 0 ∧ Decimal.intPart { coeff := c, scale := s } = 0) := by
    rw [intPart_eq hvalue hr]
    omega
  rw [expandPrintf, if_neg hnot, intPart_eq hvalue hr]
  cases expandPrinti _ <;> rfl

end

/-- Settles O47: the integer part decides the three cases, and the bounds of the fraction say that it is truncated. -/
theorem printfTruncatesToFourDigits : Obligations.PrintfTruncatesToFourDigits := by
  intro c s ip r hvalue hr
  refine ⟨expandPrintf_of_negativeFraction hvalue hr, fun hbig => ?refused, fun hsmall hnot => ?printed⟩
  case refused =>
    rw [expandPrintf_eq_map hvalue hr (by omega), expandPrinti_of_not_inRange (by omega)]
    rfl
  case printed =>
    obtain ⟨hbelow, habove, hfour⟩ := fraction_bounds hvalue hr
    obtain ⟨d₃, d₂, d₁, d₀, h₃, h₂, h₁, h₀, hf, hdigits⟩ := fourDigits_eq_of_le hfour
    have hip := expandPrinti_of_inRange (v := if c < 0 then -(ip : Int) else (ip : Int)) (by omega)
    refine ⟨_, d₃, d₂, d₁, d₀, _, hbelow, habove, h₃, h₂, h₁, h₀, hf, hip, ?_⟩
    rw [expandPrintf_eq_map hvalue hr hnot, hip, hdigits]
    rfl

end Sys2Proof.Machine
end

section
/-! PROOF. No exception at run time: from a state of the invariant a step answers a next state, or the host presented an
entry that decodes to nothing (spec/60_exceptions.md R180). -/

namespace Sys2Proof.Machine

/-- A step that does not answer a next state was refused the host's next entry, which decodes to nothing. -/
theorem step_next_or_reservedEntry {s : State} (hs : RunInv s) :
    (∃ t, step s = .next t) ∨
    (s.ir = none ∧ ∃ e rest why, s.program = e :: rest ∧ decodeEntry e = .error why ∧
      step s = .refused (.reservedWord why)) := by
  cases hir : s.ir with
  | some w =>
    obtain ⟨i, -, -, hd, hlt, -⟩ := (runInv_iff_busyInv hir).1 hs
    exact .inl ⟨_, step_micro hir hd (List.getElem?_eq_getElem hlt)⟩
  | none =>
    cases hp : s.program with
    | nil => exact .inl ⟨s, step_idle hir hp⟩
    | cons e rest =>
      cases hd : decodeEntry e with
      | ok i => exact .inl ⟨_, step_issue hir hp hd⟩
      | error why => exact .inr ⟨rfl, e, rest, why, rfl, hd, step_issue_refused hir hp hd⟩

/-- Settles O34: in a state of the invariant only the host's next entry can stop a step, and then as a reserved word. -/
theorem noStepRaisesAnException : Obligations.NoStepRaisesAnException := by
  intro s hs
  obtain ⟨t, hnext⟩ | ⟨hir, e, rest, why, hp, hd, hrefused⟩ := step_next_or_reservedEntry hs
  · simp [hnext]
  · rw [hrefused]
    refine ⟨nofun, fun r hr => ⟨hir, e, rest, why, hp, hd, ?_⟩⟩
    exact (Host.Outcome.refused.inj hr).symm

end Sys2Proof.Machine
end

section
/-! PROOF. Several blocks side by side: a step of one writes that one and keeps every configuration
(spec/60_exceptions.md R192). -/

namespace Sys2Proof.Machine

/-- Whether the pin sets are disjoint is decided by the configurations alone (R192). -/
theorem pinsDisjoint_iff_pairwise (blocks : List Block) :
    pinsDisjoint blocks = true ↔ (blocks.map Block.cfg).Pairwise fun c d => c.disjoint d = true := by
  induction blocks with
  | nil => simp [pinsDisjoint]
  | cons b rest ih => simp [pinsDisjoint, ih]

/-- A block in another's place with the same configuration keeps the list of configurations. -/
theorem map_cfg_set {blocks : List Block} {n : Nat} {b c : Block} (hb : blocks[n]? = some b) (hcfg : c.cfg = b.cfg) :
    (blocks.set n c).map Block.cfg = blocks.map Block.cfg := by
  obtain ⟨hlt, rfl⟩ := List.getElem?_eq_some_iff.mp hb
  rw [List.map_set, hcfg, ← List.map_set, List.set_getElem_self]

/-- Everything a step of the `n`-th of several blocks can do when it answers: nothing where there is no such block, else
a step of that block in its place (R192). -/
theorem stepInstance_next {n : Nat} {blocks after : List Block} (h : stepInstance n blocks = .next after) :
    pinsDisjoint blocks = true ∧
    ((blocks[n]? = none ∧ after = blocks) ∨
     ∃ b c, blocks[n]? = some b ∧ b.step = .next c ∧ after = blocks.set n c) := by
  unfold stepInstance at h
  split at h
  case isFalse => cases h
  case isTrue hdisjoint =>
    refine ⟨hdisjoint, ?_⟩
    cases hb : blocks[n]? with
    | none => exact .inl ⟨rfl, by simpa [hb, eq_comm] using h⟩
    | some b =>
      cases hstep : b.step with
      | next c => exact .inr ⟨b, c, rfl, hstep, by simpa [hb, hstep, eq_comm] using h⟩
      | fault r => simp [hb, hstep] at h
      | refused r => simp [hb, hstep] at h

/-- Settles O39: only the place of the block that stepped is written, and its configuration stays. -/
theorem instancesShareNoState : Obligations.InstancesShareNoState := by
  intro n blocks after h
  obtain ⟨hdisjoint, ⟨hnone, rfl⟩ | ⟨b, c, hb, hstep, rfl⟩⟩ := stepInstance_next h
  · exact ⟨rfl, hdisjoint, fun _ _ => rfl, by simp [hnone]⟩
  · obtain ⟨hcfg, hstate⟩ := Block.step_next.1 hstep
    refine ⟨List.length_set, ?_, fun m hm => List.getElem?_set_ne hm.symm, fun b' hb' => ?_⟩
    · rwa [pinsDisjoint_iff_pairwise, map_cfg_set hb hcfg, ← pinsDisjoint_iff_pairwise]
    · obtain rfl : b = b' := Option.some.inj (hb.symm.trans hb')
      have hlt := (List.getElem?_eq_some_iff.mp hb).1
      exact ⟨c, hstate, hcfg, List.getElem?_set_self hlt⟩

end Sys2Proof.Machine
end

section
/-! PROOF. Validation and construction: the checks V1, V3 and V4 as conditions on a pin map, the first of them that
fails, and the machine of a valid one (spec/60_exceptions.md R181 to R183; spec/10_state.md R31, R33). -/

namespace Sys2Proof

/-- V1 as the rule writes it, with `PORT_WIDTH - 1` an integer (10_state.md R31). -/
theorem RawConfig.inRange_iff (portWidth : Nat) (r : RawConfig) : r.inRange portWidth = true ↔
    (r.dataOff + 3 : Int) ≤ (portWidth : Int) - 1 ∧ (r.eBit : Int) ≤ (portWidth : Int) - 1 ∧
      (r.rsBit : Int) ≤ (portWidth : Int) - 1 := by
  simp only [RawConfig.inRange, Bool.and_eq_true, decide_eq_true_eq]
  omega

/-- V3: a pin on the data port lies below or above the four data pins (10_state.md R31). -/
theorem RawConfig.noOverlap_iff (r : RawConfig) : r.noOverlap = true ↔
    (r.ePort = r.dataPort → r.eBit < r.dataOff ∨ r.dataOff + 3 < r.eBit) ∧
      (r.rsPort = r.dataPort → r.rsBit < r.dataOff ∨ r.dataOff + 3 < r.rsBit) := by
  simp only [RawConfig.noOverlap, Bool.and_eq_true, Bool.not_eq_true', ← Bool.not_eq_true, RawConfig.isDataPin_iff]
  omega

/-- V4 (10_state.md R31). -/
theorem RawConfig.distinct_iff (r : RawConfig) : r.distinct = true ↔ ¬ (r.ePort = r.rsPort ∧ r.eBit = r.rsBit) := by
  simp only [RawConfig.distinct, Bool.not_eq_true', ← Bool.not_eq_true, Bool.and_eq_true, decide_eq_true_eq]

section
variable {portWidth : Nat} {r : RawConfig}

theorem RawConfig.valid_iff :
    r.valid portWidth = true ↔ r.inRange portWidth = true ∧ r.noOverlap = true ∧ r.distinct = true := by
  simp only [RawConfig.valid, Bool.and_eq_true]

theorem validate_of_not_inRange (h1 : ¬ r.inRange portWidth = true) : validate portWidth r = .error .range := by
  rw [validate, dif_neg h1]

theorem validate_of_not_noOverlap (h1 : r.inRange portWidth = true) (h3 : ¬ r.noOverlap = true) :
    validate portWidth r = .error .overlap := by
  rw [validate, dif_pos h1, dif_neg h3]

theorem validate_of_not_distinct (h1 : r.inRange portWidth = true) (h3 : r.noOverlap = true)
    (h4 : ¬ r.distinct = true) : validate portWidth r = .error .samePin := by
  rw [validate, dif_pos h1, dif_pos h3, dif_neg h4]

/-- A valid pin map passes validation unchanged (R182). -/
theorem validate_of_valid (h : r.valid portWidth = true) :
    validate portWidth r = .ok { raw := r, portWidth := portWidth, isValid := h } := by
  obtain ⟨h1, h3, h4⟩ := RawConfig.valid_iff.1 h
  rw [validate, dif_pos h1, dif_pos h3, dif_pos h4]

/-- An invalid pin map fails validation (R182, R183). -/
theorem validate_of_not_valid (h : ¬ r.valid portWidth = true) : ∃ e, validate portWidth r = .error e := by
  by_cases h1 : r.inRange portWidth = true
  · by_cases h3 : r.noOverlap = true
    · have h4 : ¬ r.distinct = true := fun h4 => h (RawConfig.valid_iff.2 ⟨h1, h3, h4⟩)
      exact ⟨_, validate_of_not_distinct h1 h3 h4⟩
    · exact ⟨_, validate_of_not_noOverlap h1 h3⟩
  · exact ⟨_, validate_of_not_inRange h1⟩

end

namespace Machine

section
variable {portWidth : Nat} {r : RawConfig}

theorem construct_of_validate_ok {c : Config} (h : validate portWidth r = .ok c) (k : Constants) (draw : Out) :
    construct portWidth r k draw = .ok (Block.fresh c k draw) := by
  rw [construct, h]

theorem construct_of_validate_error {e : ConfigError} (h : validate portWidth r = .error e) (k : Constants)
    (draw : Out) : construct portWidth r k draw = .error e := by
  rw [construct, h]

end

/-- Settles O40: the checks in their order, each failing case with the earlier checks passed. -/
theorem validationReportsTheFirstFailure : Obligations.ValidationReportsTheFirstFailure := by
  intro portWidth r k draw v1 v3 v4
  have h1 : r.inRange portWidth = true ↔ v1 := r.inRange_iff portWidth
  have h3 : r.noOverlap = true ↔ v3 := r.noOverlap_iff
  have h4 : r.distinct = true ↔ v4 := r.distinct_iff
  rw [← h1, ← h3, ← h4]
  refine ⟨fun hv1 => ?range, fun hv1 hv3 => ?overlap, fun hv1 hv3 hv4 => ?samePin, fun hv1 hv3 hv4 => ?valid,
    rfl, rfl, rfl⟩
  case range =>
    have hval := validate_of_not_inRange hv1
    exact ⟨hval, construct_of_validate_error hval k draw⟩
  case overlap =>
    have hval := validate_of_not_noOverlap hv1 hv3
    exact ⟨hval, construct_of_validate_error hval k draw⟩
  case samePin =>
    have hval := validate_of_not_distinct hv1 hv3 hv4
    exact ⟨hval, construct_of_validate_error hval k draw⟩
  case valid =>
    have hval := validate_of_valid (RawConfig.valid_iff.2 ⟨hv1, hv3, hv4⟩)
    exact ⟨_, hval, rfl, rfl, construct_of_validate_ok hval k draw⟩

/-- A run of the machine of a configuration ends as the run of the bare state, under the block's configuration (R33). -/
theorem machine_run_eq_outcome (c : Config) (k : Constants) (draw : Out) (n : Nat) (b : Block) :
    (machine c k draw).run n b = b.outcome (steps n b.state) := by
  rw [machine_run, Block.steps_eq]

/-- A step of a block with an operation in progress is that instruction's step on the block (R29, R183). -/
theorem Block.step_busy_exec {b : Block} {w : Word} {i : Instr} (h : b.state.ir = some w) (hd : decode w = .ok i) :
    b.step = b.exec i := by
  rw [Block.step, Block.exec, Sys2Proof.Machine.step_busy_exec h hd]

/-- Settles O41: validation decides whether there is a block, and a block's runs are its state's, under the one
configuration. The core machine is the bare state of the block of `installedConfig` (log entries 2 and 3). -/
theorem machineExistsOnlyForAValidPinMap : Obligations.MachineExistsOnlyForAValidPinMap := by
  refine ⟨fun portWidth r k draw => ⟨fun hvalid => ?block, fun hinvalid => ?noBlock⟩, fun c k draw n b t hrun => ?run,
    fun b w i hir hd => Block.step_busy_exec hir hd, installedConfig.isValid, rfl, fun n s => ?core⟩
  case block => exact ⟨_, rfl, rfl, construct_of_validate_ok (validate_of_valid hvalid) k draw⟩
  case noBlock =>
    obtain ⟨e, he⟩ := validate_of_not_valid (Bool.eq_false_iff.1 hinvalid)
    exact ⟨e, construct_of_validate_error he k draw⟩
  case run =>
    rw [machine_run_eq_outcome] at hrun
    exact Block.outcome_next_iff.1 hrun
  case core =>
    rw [core_run, machine_run_eq_outcome]
    refine ⟨fun t => ?_, fun f => Block.outcome_fault_iff.symm, fun r => Block.outcome_refused_iff.symm⟩
    rw [Block.outcome_next_iff]
    exact (and_iff_right rfl).symm

end Machine

end Sys2Proof
end

section
/-! PROOF. Reset and hazards: an operation in progress finishes, a second one is refused, reset starts nothing, and the
duration of each operation (spec/10_state.md R26, R29; spec/70_reset_and_hazards.md R211, R221, R225, R230). -/

namespace Sys2Proof.Machine

/-! ### An operation in progress -/

/-- An operation in progress performs what is left of its micro-program, and is then retired (R29). -/
theorem steps_rest {s : State} {w : Word} {i : Instr} (hir : s.ir = some w) (hd : decode w = .ok i)
    (hlt : s.upc.toNat < (uprog s.constants i).length) :
    steps ((uprog s.constants i).length - s.upc.toNat) s =
      .next (s.afterMicros ((uprog s.constants i).drop s.upc.toNat)).retire := by
  have hleft := List.drop_eq_getElem_cons hlt
  have hrun := steps_busy hir hd hleft
  rwa [← hleft, List.length_drop] at hrun

/-- What is left of a micro-program ends where the whole of it ends, in the idle pattern (40_bus_primitives.md R124). -/
theorem outAfter_drop_uprog {k : Constants} {i : Instr} {n : Nat} (h : n < (uprog k i).length) (o : Out) :
    outAfter (outAfter o ((uprog k i).take n)) ((uprog k i).drop n) = Out.idle := by
  rw [← outAfter_append, List.take_append_drop]
  exact outAfter_uprog (List.ne_nil_of_length_pos (Nat.zero_lt_of_lt h)) o

/-- Settles O24: the invariant puts UPC inside the micro-program of IR, and the rest of it runs to its end. -/
theorem operationInProgressFinishes : Obligations.OperationInProgressFinishes := by
  intro s hs hbusy
  obtain ⟨w, hir⟩ := Option.ne_none_iff_exists'.1 hbusy
  obtain ⟨i, o, before, hd, hlt, hout, -, -⟩ := (runInv_iff_busyInv hir).1 hs
  have hlen := uprog_length_le s.constants i
  refine ⟨_, _, by omega, steps_rest hir hd hlt, rfl, rfl, ?_, rfl⟩
  rw [State.retire_out, State.afterMicros_out, hout]
  exact outAfter_drop_uprog hlt o

/-- Settles O21: `operate` on the instruction's own word refuses a state with another word in IR. -/
theorem operationPresentedWhileBusyIsRefused : Obligations.OperationPresentedWhileBusyIsRefused := by
  intro i s v hwf hir hother
  rw [exec_eq_operate_of_wf hwf, operate_other hir hother]

/-! ### An idle block with nothing to present -/

/-- With nothing in progress and nothing to present, no number of steps changes the state (R211). -/
theorem steps_idle {s : State} (hir : s.ir = none) (hp : s.program = []) (n : Nat) : steps n s = .next s := by
  induction n with
  | zero => rfl
  | succ n ih => rw [steps_succ (step_idle hir hp), ih]

/-- Settles O33: the fresh state is idle and its host program empty, and a block's steps are those of its state. -/
theorem resetStartsNothing : Obligations.ResetStartsNothing := by
  have hfresh (k : Constants) (draw : Out) (n : Nat) : steps n (State.fresh k draw) = .next (State.fresh k draw) :=
    steps_idle rfl rfl n
  refine ⟨hfresh _ _, fun n c k draw => ⟨hfresh k draw n, ?_⟩, rfl, rfl, rfl, rfl⟩
  rw [Block.steps_eq, Block.fresh_state, hfresh]
  rfl

/-! ### Durations -/

/-- CMD, DATA and SETPOS send one byte (40_bus_primitives.md R119, R120; 42_position_and_shift.md R150). -/
theorem uprog_of_byteOperation {i : Instr}
    (h : (∃ b, i = .cmd b) ∨ (∃ b, i = .data b) ∨ ∃ row col, i = .setpos row col) (k : Constants) :
    ∃ rs b, uprog k i = byteFrames rs b := by
  obtain ⟨b, rfl⟩ | ⟨b, rfl⟩ | ⟨row, col, rfl⟩ := h
  · exact ⟨false, b, rfl⟩
  · exact ⟨true, b, rfl⟩
  · exact ⟨false, addrCmd row col, rfl⟩

/-- SHL and SHR repeat one command byte (42_position_and_shift.md R151, R152). -/
theorem uprog_of_shift {times : Byte} {i : Instr} (h : i = .shl times ∨ i = .shr times) (k : Constants) :
    ∃ b, uprog k i = repeatShift b times := by
  obtain rfl | rfl := h
  · exact ⟨k.shLeft, rfl⟩
  · exact ⟨k.shRight, rfl⟩

@[simp] theorem minDuration_thenDelay (t : Timing) (p : List MicroOp) (k : DelayClass) :
    minDuration t (thenDelay p k) = minDuration t p + t.of k := by
  rw [thenDelay, minDuration_append, minDuration_dly]

theorem minDuration_repeatShift (t : Timing) (b times : Byte) :
    minDuration t (repeatShift b times) = times.toNat * (2 * (2 * t.strobe + t.settle) + t.shift) := by
  rw [repeatShift]
  induction times.toNat with
  | zero => rw [Nat.zero_mul]; rfl
  | succ n ih =>
    rw [List.replicate_succ, List.flatten_cons, minDuration_append, ih, minDuration_thenDelay, minDuration_byteFrames,
      Timing.of]
    exact (Nat.add_comm _ _).trans (Nat.succ_mul n _).symm

/-- The nine delays of INIT outside its frames (41_init_sequence.md R141). -/
def longDelays : List DelayClass := [.pwron, .hs1, .hs2, .hs3, .home, .clear, .fset, .dctl, .emode]

/-- INIT lasts its nine long delays and fifteen frames (R230). -/
theorem minDuration_uprogInit (t : Timing) (k : Constants) (dc : Byte) :
    minDuration t (uprogInit k dc) = (longDelays.map t.of).sum + 15 * (2 * t.strobe + t.settle) := by
  have hreset : minDuration t [.rstlines] = 0 := rfl
  simp only [uprogInit, initSteps, longDelays, List.flatten_cons, List.flatten_nil, List.append_nil,
    minDuration_append, hreset, minDuration_dly, minDuration_thenDelay, minDuration_frame, minDuration_byteFrames,
    List.map_cons, List.map_nil, List.sum_cons, List.sum_nil]
  omega

/-- With every long delay at its minimum they last 23.6 ms together (R220, R230). -/
theorem sum_longDelays {t : Timing}
    (h : ∀ c, c ≠ DelayClass.strobe → c ≠ .settle → c ≠ .shift → t.of c = c.minimum) :
    (longDelays.map t.of).sum = 23600000 := by
  have hlong : ∀ c ∈ longDelays, c ≠ .strobe ∧ c ≠ .settle ∧ c ≠ .shift := by decide
  have hmin : ∀ c ∈ longDelays, t.of c = c.minimum := fun c hc =>
    have ⟨hstrobe, hsettle, hshift⟩ := hlong c hc
    h c hstrobe hsettle hshift
  rw [List.map_congr_left hmin]
  rfl

/-- Settles O43: the length, the latched frames and the duration of a frame, a byte, the repeated byte and INIT. -/
theorem operationDurations : Obligations.OperationDurations := by
  intro t k o hlow
  refine ⟨fun rs n => ?frame, fun i hi => ?byte, fun n i hi => ?shift, fun dc => ?init⟩
  case frame => exact ⟨rfl, by rw [latchedFrames_frame_of_low hlow]; rfl, minDuration_frame t rs n⟩
  case byte =>
    obtain ⟨rs, b, hprog⟩ := uprog_of_byteOperation hi k
    rw [hprog, latchedFrames_byteFrames hlow]
    exact ⟨rfl, rfl, minDuration_byteFrames t rs b⟩
  case shift =>
    obtain ⟨b, hprog⟩ := uprog_of_shift hi k
    rw [hprog, latchedFrames_repeatShift hlow]
    exact ⟨repeatShift_length b n, by simp [Nat.mul_comm], minDuration_repeatShift t b n⟩
  case init =>
    rw [uprog, latchedFrames_uprogInit]
    refine ⟨uprogInit_length k dc, rfl, fun hmin => ?_⟩
    rw [minDuration_uprogInit, sum_longDelays hmin]

end Sys2Proof.Machine
end
